-- ==== Sys2Proof/Word.lean ====
section
/-! DEFINITION. The widths the block's ports carry (R10, R11, R21, R22), one name each. -/

namespace Sys2Proof

/-- A binary32 pattern (R10, "BitField32"). -/
abbrev Bin32 := BitVec 32

/-- A binary64 pattern (R11). -/
abbrev Bin64 := BitVec 64

/-- One sign bit: 1 for negative, 0 for non-negative (R15). -/
abbrev SignBit := BitVec 1

/-- A biased exponent field, unsigned, bias 127 (R10, R14). -/
abbrev ExpField := BitVec 8

/-- A mantissa field, unsigned; read as a fraction it is divided by 2^23 (R10, R14). -/
abbrev MantField := BitVec 23

/-- A signed actual exponent on a port, 12-bit two's complement (R14, R57). -/
abbrev ExpPort := BitVec 12

/-- The serialised request word (R51), `op` in bits 143 to 140. -/
abbrev RequestWord := BitVec 144

end Sys2Proof
end

