-- ==== Sys2Proof/Config.lean ====
section
/-! DEFINITION. The implementation parameters of R6: the strap P_SUBN and the latency P_LAT.
The other rows of R6 (mantissa width 23, exponent width 8, bias 127, 32 bits) are fixed. -/

namespace Sys2Proof

/-- The two values of the strap P_SUBN (R6, D5): what a result below the normal range becomes (R77). -/
inductive SubnormalPolicy where
  /-- GRADUAL, the default: a truncated subnormal, or a signed zero below 2^(-149). -/
  | gradual
  /-- FLUSH: a signed zero. -/
  | flush
  deriving DecidableEq, Repr

/-- The configuration of one block, `Config = { P_SUBN }` (R20). It is fixed when the block is built
(R27). A model takes it as an argument (R6): it stands in State, and no step changes it (log 2). -/
structure Config where
  pSubn : SubnormalPolicy
  deriving DecidableEq, Repr

/-- P_LAT, the clock cycles from request to response: a natural number left open (R6, R155, D19). A free
value: nothing can be proved of it, and no definition reads it, as "no rule depends on it" (log 3). -/
opaque pLat : Nat

end Sys2Proof
end

