-- ==== Sys2Proof/Syntax.lean ====
section
/-! DEFINITION. Requests as the block sees them (the input ports, R21) and as operations (Instr, one
constructor per row of spec/opcode_table.json, R55), with the request formats of R50. -/

namespace Sys2Proof

/-- One request: the value of every input port, presented together (R21, R50). -/
structure Request where
  op   : BitVec 4
  a64  : Bin64
  a32  : Bin32
  sIn  : SignBit
  eIn  : ExpPort
  efIn : ExpField
  mIn  : MantField
  deriving DecidableEq, Repr

/-- An operation with the operands its format reads (R50, R55). -/
inductive Instr where
  /-- `0x0` SIGNX, sign_extract (R72). -/
  | signx (a64 : Bin64)
  /-- `0x1` NORM, normalize_mantissa (R74). -/
  | norm (a64 : Bin64)
  /-- `0x2` BIASE, bias_exponent (R76). -/
  | biase (eIn : ExpPort)
  /-- `0x3` PACK, pack_bitfield (R78). -/
  | pack (sIn : SignBit) (efIn : ExpField) (mIn : MantField)
  /-- `0x4` ENC32, the whole encoder (R80). -/
  | enc32 (a64 : Bin64)
  /-- `0x5` UNPACK, unpack_bitfield (R100). -/
  | unpack (a32 : Bin32)
  /-- `0x6` UNBIAS, unbias_exponent (R103). -/
  | unbias (efIn : ExpField)
  /-- `0x7` DENORM, denormalize_to_value (R105). -/
  | denorm (sIn : SignBit) (efIn : ExpField) (mIn : MantField)
  /-- `0x8` DEC32, the whole decoder (R107). -/
  | dec32 (a32 : Bin32)
  /-- `0x9` CLASS32, special_case_detector on binary32 (R121). -/
  | class32 (a32 : Bin32)
  /-- `0xA` CLASS64, special_case_detector on binary64 (R123). -/
  | class64 (a64 : Bin64)
  /-- `0xB`, reserved (R56). -/
  | reservedB
  /-- `0xC`, reserved (R56). -/
  | reservedC
  /-- `0xD`, reserved (R56). -/
  | reservedD
  /-- `0xE`, reserved (R56). -/
  | reservedE
  /-- `0xF`, reserved (R56). -/
  | reservedF
  deriving DecidableEq, Repr

/-- The operand input ports, every port of R21 but `op`. -/
inductive InPort where
  | a64 | a32 | sIn | eIn | efIn | mIn
  deriving DecidableEq, Repr

/-- The request formats of R50, named by the operands they read. -/
inductive Format where
  | f64 | f32 | fe | fef | ffld | fnone
  deriving DecidableEq, Repr

end Sys2Proof
end

