-- ==== Sys2Proof/WellFormed.lean ====
section
/-! DEFINITION. Which requests are well formed: those a requesting program may make without being at
fault (R132, R133). Widths need no check, since "a value wider than a port cannot be presented" (R42)
and every operand has its port's type. Decoding, encoding and exec are total on the others too. -/

namespace Sys2Proof

/-- The operation is one of the 11 of R55, not a reserved value (R56, R132). -/
def Instr.opIsDefined : Instr → Bool
  | .signx _ | .norm _ | .biase _ | .pack _ _ _ | .enc32 _ | .unpack _ | .unbias _
  | .denorm _ _ _ | .dec32 _ | .class32 _ | .class64 _ => true
  | .reservedB | .reservedC | .reservedD | .reservedE | .reservedF => false

/-- The operand is in the operation's domain: NORM takes a "magnitude: non-negative real", so its
binary64 exponent field is not all ones (R133). Every other operation accepts every operand. -/
def Instr.operandInDomain : Instr → Bool
  | .norm a64 => a64.extractLsb' 52 11 != 0x7FF#11
  | .signx _ | .biase _ | .pack _ _ _ | .enc32 _ | .unpack _ | .unbias _ | .denorm _ _ _
  | .dec32 _ | .class32 _ | .class64 _ => true
  | .reservedB | .reservedC | .reservedD | .reservedE | .reservedF => true

/-- Both checks: the request meets no cause of R130's table. -/
def Instr.wellFormed (i : Instr) : Bool :=
  i.opIsDefined && i.operandInDomain

end Sys2Proof
end

