-- ==== Sys2Proof/Decode.lean ====
section
/-! DEFINITION. The operation map (R55), the serialised request word (R51), the decoder and, after it,
the encoder. The decoder is total: "every value has exactly one meaning" (R55), reserved values too. The
one thing it rejects, by name, is a number too wide to be a request. -/

namespace Sys2Proof

/-- The format each value of `op` has (R50). -/
def formatOf (op : BitVec 4) : Format :=
  match op with
  | 0x0#4 | 0x1#4 | 0x4#4 | 0xA#4 => .f64
  | 0x5#4 | 0x8#4 | 0x9#4 => .f32
  | 0x2#4 => .fe
  | 0x6#4 => .fef
  | 0x3#4 | 0x7#4 => .ffld
  | _ => .fnone

/-- The operand ports a format reads (R50, R21). -/
def Format.reads (f : Format) (p : InPort) : Bool :=
  match f, p with
  | .f64, .a64 | .f32, .a32 | .fe, .eIn | .fef, .efIn => true
  | .ffld, .sIn | .ffld, .efIn | .ffld, .mIn => true
  | _, _ => false

/-- The unsigned value on an operand port (R21). -/
def operandValue (r : Request) (p : InPort) : Nat :=
  match p with
  | .a64 => r.a64.toNat
  | .a32 => r.a32.toNat
  | .sIn => r.sIn.toNat
  | .eIn => r.eIn.toNat
  | .efIn => r.efIn.toNat
  | .mIn => r.mIn.toNat

/-- A request's word, its ports laid side by side with `op` on top (R51). -/
def Request.toWord (r : Request) : RequestWord :=
  r.op ++ r.a64 ++ r.a32 ++ r.sIn ++ r.eIn ++ r.efIn ++ r.mIn

/-- The ports a request word stands for, at the bit positions of R51's table. -/
def Request.ofWord (w : RequestWord) : Request :=
  { op   := w.extractLsb' 140 4
    a64  := w.extractLsb' 76 64
    a32  := w.extractLsb' 44 32
    sIn  := w.extractLsb' 43 1
    eIn  := w.extractLsb' 31 12
    efIn := w.extractLsb' 23 8
    mIn  := w.extractLsb' 0 23 }

/-- The operation the ports present: selected by `op` alone, with the operand ports its format reads
and no others (R50, R55, R56). -/
def decodeRequest (r : Request) : Instr :=
  match r.op with
  | 0x0#4 => .signx r.a64
  | 0x1#4 => .norm r.a64
  | 0x2#4 => .biase r.eIn
  | 0x3#4 => .pack r.sIn r.efIn r.mIn
  | 0x4#4 => .enc32 r.a64
  | 0x5#4 => .unpack r.a32
  | 0x6#4 => .unbias r.efIn
  | 0x7#4 => .denorm r.sIn r.efIn r.mIn
  | 0x8#4 => .dec32 r.a32
  | 0x9#4 => .class32 r.a32
  | 0xA#4 => .class64 r.a64
  | 0xB#4 => .reservedB
  | 0xC#4 => .reservedC
  | 0xD#4 => .reservedD
  | 0xE#4 => .reservedE
  | _ => .reservedF

/-- The operation of a serialised request word (R51). -/
def decode (w : RequestWord) : Instr :=
  decodeRequest (Request.ofWord w)

/-- Why a number is no request. -/
inductive Rejection where
  /-- It has a bit above bit 143: "a value wider than a port cannot be presented" (R42). -/
  | wordTooWide
  deriving DecidableEq, Repr

/-- The operation of a number read as a request word, or the reason it is none. -/
def decodeNat (w : Nat) : Except Rejection Instr :=
  if w < 2 ^ 144 then .ok (decode (BitVec.ofNat 144 w)) else .error .wordTooWide

/-- A table word: the low `nbits` bits of `w`, the bits above them 0. -/
def decodeTableWord (nbits w : Nat) : Option Instr :=
  match decodeNat (w % 2 ^ nbits) with
  | .ok i => some i
  | .error _ => none

/-- The request with every port 0. -/
def Request.zero : Request :=
  { op := 0, a64 := 0, a32 := 0, sIn := 0, eIn := 0, efIn := 0, mIn := 0 }

/-- An operation as a request: its `op` value (R55) and its operands, and 0 on every port its format
does not read. A listing gives no value for those (R51, R62), so the 0 is the model's (log 7). -/
def requestOf : Instr → Request
  | .signx a64 => { Request.zero with op := 0x0#4, a64 := a64 }
  | .norm a64 => { Request.zero with op := 0x1#4, a64 := a64 }
  | .biase eIn => { Request.zero with op := 0x2#4, eIn := eIn }
  | .pack sIn efIn mIn => { Request.zero with op := 0x3#4, sIn := sIn, efIn := efIn, mIn := mIn }
  | .enc32 a64 => { Request.zero with op := 0x4#4, a64 := a64 }
  | .unpack a32 => { Request.zero with op := 0x5#4, a32 := a32 }
  | .unbias efIn => { Request.zero with op := 0x6#4, efIn := efIn }
  | .denorm sIn efIn mIn => { Request.zero with op := 0x7#4, sIn := sIn, efIn := efIn, mIn := mIn }
  | .dec32 a32 => { Request.zero with op := 0x8#4, a32 := a32 }
  | .class32 a32 => { Request.zero with op := 0x9#4, a32 := a32 }
  | .class64 a64 => { Request.zero with op := 0xA#4, a64 := a64 }
  | .reservedB => { Request.zero with op := 0xB#4 }
  | .reservedC => { Request.zero with op := 0xC#4 }
  | .reservedD => { Request.zero with op := 0xD#4 }
  | .reservedE => { Request.zero with op := 0xE#4 }
  | .reservedF => { Request.zero with op := 0xF#4 }

/-- The serialised word of an operation (R51, R55). -/
def encode (i : Instr) : RequestWord :=
  (requestOf i).toWord

end Sys2Proof
end

