-- ==== Sys2Proof/Machine/State.lean ====
section
/-! DEFINITION. What the block shows at its ports, and the reasons of a step's outcome. The block holds
no state (R20, R25 to R31), so State is the strap and the values on the ports (log 1). -/

namespace Sys2Proof.Machine

/-- One response: the value of every output port (R22). -/
structure Response where
  r32    : Bin32
  r64    : Bin64
  sOut   : SignBit
  efOut  : ExpField
  mfOut  : MantField
  eOut   : ExpPort
  clsOut : BitVec 3
  flags  : BitVec 4
  err    : BitVec 2
  deriving DecidableEq, Repr

/-- The output ports of R22 but `err`, which every request drives. -/
inductive OutPort where
  | r32 | r64 | sOut | efOut | mfOut | eOut | clsOut | flags
  deriving DecidableEq, Repr

/-- The five categories of R15; Normal is the source's "finite real value". -/
inductive Category where
  | zero | subnormal | normal | infinity | nan
  deriving DecidableEq, Repr

/-- The rows of R130's table. -/
inductive ErrCode where
  | none | illegalOp | domain | invalidEncoding
  deriving DecidableEq, Repr

/-- The faults of a requesting program (R132, R133, D9, U7, U9). The block answers both with a defined
response and goes on (R131, R139, R156), so no step ends in one: `recordedFault` reads them from the
response a step leaves (log 5). Safe: nothing stops that the block would go on with. -/
inductive Fault where
  /-- Recorded by a response to a reserved op (R132). Safe: the response is the one R131 gives. -/
  | illegalOp
  /-- Recorded by a response to NORM of an infinity or a NaN (R133). Safe: likewise. -/
  | domain
  deriving DecidableEq, Repr

/-- "The block never hangs and never refuses a request" (R156). -/
inductive Refusal where
  /-- Raised by an arm of exec whose instruction has no meaning yet; every arm has one. Safe. -/
  | notModelled (mnemonic : String)
  deriving DecidableEq, Repr

/-- The strap, the request on the input ports and the response on the output ports. -/
structure State where
  config : Config
  inp    : Request
  out    : Response
  deriving DecidableEq, Repr

/-- Power-up. The strap has R6's default (log 2). Nothing is presented, DESIGN CHOICE: every input port
reads 0 (log 4); the output ports hold the response to that, as R150 says, which is 0 on every port. -/
def State.reset : State :=
  { config := { pSubn := .gradual }
    inp := { op := 0, a64 := 0, a32 := 0, sIn := 0, eIn := 0, efIn := 0, mIn := 0 }
    out := { r32 := 0, r64 := 0, sOut := 0, efOut := 0, mfOut := 0, eOut := 0, clsOut := 0,
             flags := 0, err := 0 } }

end Sys2Proof.Machine
end

