-- ==== Sys2Proof/Machine/Ops.lean ====
section
/-! DEFINITION. The operations over the ports that every meaning shares: the request presented, the
response driven (R22, R23), and the one error operation `raise Err(code)` (R131). -/

namespace Sys2Proof.Machine

/-- The request on the input ports, which the step evaluates (R20, R50). -/
def presented (s : State) : Request :=
  s.inp

/-- The host presents a request: every input port at once, nothing else (R157). -/
def present (s : State) (r : Request) : State :=
  { s with inp := r }

/-- The response an operation starts from: "each output port that the operation's rule does not drive
is 0" (R23). -/
def quiet : Response :=
  { r32 := 0, r64 := 0, sOut := 0, efOut := 0, mfOut := 0, eOut := 0, clsOut := 0, flags := 0, err := 0 }

/-- The block drives a whole response. The host holds the input ports (R154), the strap is static
(R27), and nothing is kept of the response before (R29). -/
def drive (r : Response) (s : State) : Host.Outcome State Fault Refusal :=
  .next { s with out := r }

/-- The codes of `err` (R130). -/
def ErrCode.code : ErrCode → BitVec 2
  | .none => 0b00#2
  | .illegalOp => 0b01#2
  | .domain => 0b10#2
  | .invalidEncoding => 0b11#2

/-- `raise Err(code)` (R131): `err` gets the code, every other output port is 0, and nothing else
happens. No state is saved, no mode changes and there is no return from it (R138, R139). -/
def raiseErr (e : ErrCode) (s : State) : Host.Outcome State Fault Refusal :=
  drive { quiet with err := e.code } s

/-- The fault of the requesting program that a response records (R132, R133, U7, U9). -/
def recordedFault (r : Response) : Option Fault :=
  if r.err = ErrCode.illegalOp.code then some .illegalOp
  else if r.err = ErrCode.domain.code then some .domain
  else none

/-- The ports each operation drives, the "drives" column of R55 and the "driven by" column of R22. -/
def drives (op : BitVec 4) (p : OutPort) : Bool :=
  match op, p with
  | 0x0#4, .sOut | 0x0#4, .r64 => true
  | 0x1#4, .eOut | 0x1#4, .mfOut | 0x1#4, .flags => true
  | 0x2#4, .efOut | 0x2#4, .flags => true
  | 0x3#4, .r32 => true
  | 0x4#4, .r64 => false
  | 0x4#4, _ => true
  | 0x5#4, .sOut | 0x5#4, .efOut | 0x5#4, .mfOut => true
  | 0x6#4, .eOut => true
  | 0x7#4, .r64 | 0x7#4, .clsOut => true
  | 0x8#4, .r32 | 0x8#4, .flags => false
  | 0x8#4, _ => true
  | 0x9#4, .sOut | 0x9#4, .clsOut => true
  | 0xA#4, .sOut | 0xA#4, .clsOut => true
  | _, _ => false

/-- The unsigned value on an output port. -/
def portValue (r : Response) (p : OutPort) : Nat :=
  match p with
  | .r32 => r.r32.toNat
  | .r64 => r.r64.toNat
  | .sOut => r.sOut.toNat
  | .efOut => r.efOut.toNat
  | .mfOut => r.mfOut.toNat
  | .eOut => r.eOut.toNat
  | .clsOut => r.clsOut.toNat
  | .flags => r.flags.toNat

end Sys2Proof.Machine
end

