-- ==== Sys2Proof/Machine/Operands.lean ====
section
/-! DEFINITION. The operand forms: the fields of a binary32 and a binary64 pattern (R52, R53), their
categories (R120, R54), the exact magnitude of a binary64 pattern (R54), and the conversions between
integers and ports (R13, R57, R58). -/

namespace Sys2Proof.Machine

/-- `zext_N(v)` for a `v` that fits (R13). -/
def zext (n : Nat) (v : Nat) : BitVec n :=
  BitVec.ofNat n v

/-- `sext_12(e)`, an actual exponent on a port (R13, R57). -/
def sext12 (e : Int) : ExpPort :=
  BitVec.ofInt 12 e

/-- `sval_12(p)`, the actual exponent a port carries (R13, R57). -/
def sval12 (p : ExpPort) : Int :=
  p.toInt

/-- `sign(w)` (R52). -/
def sign32 (w : Bin32) : SignBit :=
  w.extractLsb' 31 1

/-- `expf(w)` (R52). -/
def expf32 (w : Bin32) : ExpField :=
  w.extractLsb' 23 8

/-- `mant(w)` (R52). -/
def mant32 (w : Bin32) : MantField :=
  w.extractLsb' 0 23

/-- `{s, ef, m}`, the word of a field triple (R52). -/
def fields32 (s : SignBit) (ef : ExpField) (m : MantField) : Bin32 :=
  s ++ ef ++ m

/-- `sign64(p)` (R53). -/
def sign64 (p : Bin64) : SignBit :=
  p.extractLsb' 63 1

/-- `expf64(p)` (R53). -/
def expf64 (p : Bin64) : BitVec 11 :=
  p.extractLsb' 52 11

/-- `mant64(p)` (R53). -/
def mant64 (p : Bin64) : BitVec 52 :=
  p.extractLsb' 0 52

/-- The binary64 word of three fields (R53). -/
def fields64 (s : SignBit) (e : BitVec 11) (f : BitVec 52) : Bin64 :=
  s ++ e ++ f

/-- The category of a binary32 exponent and mantissa field (R120, and R101's table). -/
def classFields (ef : ExpField) (m : MantField) : Category :=
  if ef = 0x00#8 then (if m = 0 then .zero else .subnormal)
  else if ef = 0xFF#8 then (if m = 0 then .infinity else .nan)
  else .normal

/-- `class32(w)` (R120). -/
def class32 (w : Bin32) : Category :=
  classFields (expf32 w) (mant32 w)

/-- `class64(p)` (R54). -/
def class64 (p : Bin64) : Category :=
  if expf64 p = 0 then (if mant64 p = 0 then .zero else .subnormal)
  else if expf64 p = 2047 then (if mant64 p = 0 then .infinity else .nan)
  else .normal

/-- The codes of `cls_out` (R58); 5, 6 and 7 are never driven. -/
def Category.code : Category → BitVec 3
  | .zero => 0b000#3
  | .subnormal => 0b001#3
  | .normal => 0b010#3
  | .infinity => 0b011#3
  | .nan => 0b100#3

/-- An exact non-negative dyadic number, `sig × 2^ex`: the form of R54's magnitudes. All arithmetic on
it is exact (R13). -/
structure Mag where
  sig : Nat
  ex  : Int
  deriving DecidableEq, Repr

/-- `M × 2^k`. -/
def Mag.scale (q : Mag) (k : Int) : Mag :=
  { q with ex := q.ex + k }

/-- `floor(M)` (R13). -/
def Mag.floor (q : Mag) : Nat :=
  if 0 ≤ q.ex then q.sig <<< q.ex.toNat else q.sig >>> (-q.ex).toNat

/-- `is_int(M)` (R13): no digit stands below the binary point. -/
def Mag.isInt (q : Mag) : Bool :=
  if 0 ≤ q.ex then true else (q.sig >>> (-q.ex).toNat) <<< (-q.ex).toNat == q.sig

/-- `flog2(M)` for `M > 0`, the `e` with `2^e ≤ M < 2^(e+1)` (R13). -/
def Mag.flog2 (q : Mag) : Int :=
  (Nat.log2 q.sig : Int) + q.ex

/-- `mag64(p)`, the magnitude of a finite binary64 pattern (R54). -/
def mag64 (p : Bin64) : Mag :=
  if expf64 p = 0 then { sig := (mant64 p).toNat, ex := -1074 }
  else { sig := 2 ^ 52 + (mant64 p).toNat, ex := ((expf64 p).toNat : Int) - 1075 }

/-- `|x|` as a pattern: the input with its sign bit cleared (R72). -/
def clearSign64 (p : Bin64) : Bin64 :=
  (0#1 ++ p.extractLsb' 0 63 : BitVec 64)

/-- `enc64(s, q)`, the binary64 pattern of sign `s` and magnitude `q` (R54). The rules use it only
where it is defined. -/
def enc64 (s : SignBit) (q : Mag) : Bin64 :=
  if q.sig = 0 then fields64 s 0 0
  else fields64 s (zext 11 (q.flog2 + 1023).toNat)
    (zext 52 ((q.scale (52 - q.flog2)).floor - 2 ^ 52))

end Sys2Proof.Machine
end

