-- ==== Sys2Proof/Machine/Classifier.lean ====
section
/-! DEFINITION. The special-case detector (42_classifier.md): the meanings of CLASS32 and CLASS64. Both
report the raw sign bit for every category, NaN included (D25). -/

namespace Sys2Proof.Machine

/-- CLASS32 (R121). -/
def execClass32 (a32 : Bin32) (s : State) : Host.Outcome State Fault Refusal :=
  drive { quiet with clsOut := (class32 a32).code, sOut := sign32 a32 } s

/-- CLASS64 (R123): the category of the input, not of what ENC32 would make of it. -/
def execClass64 (a64 : Bin64) (s : State) : Host.Outcome State Fault Refusal :=
  drive { quiet with clsOut := (class64 a64).code, sOut := sign64 a64 } s

end Sys2Proof.Machine
end

