-- ==== Sys2Proof/Machine/Flags.lean ====
section
/-! DEFINITION. The `flags` output (R24): bit 0 exact, bit 1 ovf, bit 2 unf, bit 3 zero; none sticky. -/

namespace Sys2Proof.Machine

/-- The four flag bits as the port's word. -/
def flagBits (exact ovf unf zero : Bool) : BitVec 4 :=
  BitVec.ofBool zero ++ BitVec.ofBool unf ++ BitVec.ofBool ovf ++ BitVec.ofBool exact

/-- Bit 0 of `flags`. -/
def exactFlag (f : BitVec 4) : Bool := f.getLsbD 0

/-- Bit 1 of `flags`. -/
def ovfFlag (f : BitVec 4) : Bool := f.getLsbD 1

/-- Bit 2 of `flags`. -/
def unfFlag (f : BitVec 4) : Bool := f.getLsbD 2

/-- Bit 3 of `flags`. -/
def zeroFlag (f : BitVec 4) : Bool := f.getLsbD 3

end Sys2Proof.Machine
end

