-- ==== Sys2Proof/Machine/Encoder.lean ====
section
/-! DEFINITION. The encoder (40_encoder.md): normalization, biasing, the out-of-range policy, and the
meanings of SIGNX, NORM, BIASE, PACK and ENC32. -/

namespace Sys2Proof.Machine

/-- The source's NormalizedForm, with the mantissa bits as an integer (R71, R74). -/
structure NormalizedForm where
  e     : Int
  mant  : Nat
  exact : Bool
  deriving DecidableEq, Repr

/-- `norm23(M)` for `M > 0` (R71, by C1's reading): the exponent, the first 23 bits after the leading
1, truncated (R73), and whether no nonzero digit was dropped. -/
def norm23 (q : Mag) : NormalizedForm :=
  let e := q.flog2
  let t := q.scale (23 - e)
  { e := e, mant := t.floor - 2 ^ 23, exact := t.isInt }

/-- What biasing an actual exponent gives (R76, R77). -/
inductive Biased where
  | inRange (b : ExpField)
  | overflow
  | underflow
  deriving DecidableEq, Repr

/-- `b = e + 127`, exactly, and where it falls against `[1, 254]` (R76, R77). -/
def biasExp (e : Int) : Biased :=
  let b := e + 127
  if 255 ≤ b then .overflow
  else if 1 ≤ b then .inRange (zext 8 b.toNat)
  else .underflow

/-- `0x7FC00000`, the encoding of every NaN input (R79). -/
def canonicalNan32 : Bin32 :=
  0x7FC00000#32

/-- A result and the flags that report it. -/
structure Encoded where
  word  : Bin32
  flags : BitVec 4
  deriving DecidableEq, Repr

/-- The underflow cases of R77: sign `s`, magnitude `q` below 2^(-126). -/
def encodeUnderflow (p : SubnormalPolicy) (s : SignBit) (q : Mag) : Encoded :=
  match p with
  | .flush => { word := fields32 s 0x00#8 0, flags := flagBits false false true true }
  | .gradual =>
    let t := q.scale 149
    if t.floor = 0 then { word := fields32 s 0x00#8 0, flags := flagBits false false true true }
    else { word := fields32 s 0x00#8 (zext 23 t.floor), flags := flagBits t.isInt false true false }

/-- A finite nonzero input of sign `s` and magnitude `q` (R80's last branch, R77). -/
def encodeFinite (p : SubnormalPolicy) (s : SignBit) (q : Mag) : Encoded :=
  let n := norm23 q
  match biasExp n.e with
  | .inRange b => { word := fields32 s b (zext 23 n.mant), flags := flagBits n.exact false false false }
  | .overflow => { word := fields32 s 0xFF#8 0, flags := flagBits false true false false }
  | .underflow => encodeUnderflow p s q

/-- The word and flags of `encode(x)` (R80). -/
def encode32 (p : SubnormalPolicy) (a64 : Bin64) : Encoded :=
  let s := sign64 a64
  match class64 a64 with
  | .nan => { word := canonicalNan32, flags := flagBits true false false false }
  | .infinity => { word := fields32 s 0xFF#8 0, flags := flagBits true false false false }
  | .zero => { word := fields32 s 0x00#8 0, flags := flagBits true false false true }
  | .normal => encodeFinite p s (mag64 a64)
  | .subnormal => encodeFinite p s (mag64 a64)

/-- The actual exponent a biased field reports, `ef − 127` for every field (R80, R103, R107, C2). -/
def unbiasExp (ef : ExpField) : ExpPort :=
  sext12 ((ef.toNat : Int) - 127)

/-- SIGNX (R72). -/
def execSignx (a64 : Bin64) (s : State) : Host.Outcome State Fault Refusal :=
  drive { quiet with
    sOut := if class64 a64 = .nan then 0 else sign64 a64
    r64 := clearSign64 a64 } s

/-- NORM (R74): the operand's sign bit is ignored; DOMAIN on an infinity or a NaN (R133). -/
def execNorm (a64 : Bin64) (s : State) : Host.Outcome State Fault Refusal :=
  match class64 a64 with
  | .infinity => raiseErr .domain s
  | .nan => raiseErr .domain s
  | .zero => drive { quiet with
      eOut := sext12 0
      mfOut := zext 23 0
      flags := flagBits true false false true } s
  | .normal => drive { quiet with
      eOut := sext12 (norm23 (mag64 a64)).e
      mfOut := zext 23 (norm23 (mag64 a64)).mant
      flags := flagBits (norm23 (mag64 a64)).exact false false false } s
  | .subnormal => drive { quiet with
      eOut := sext12 (norm23 (mag64 a64)).e
      mfOut := zext 23 (norm23 (mag64 a64)).mant
      flags := flagBits (norm23 (mag64 a64)).exact false false false } s

/-- BIASE (R76). -/
def execBiase (eIn : ExpPort) (s : State) : Host.Outcome State Fault Refusal :=
  match biasExp (sval12 eIn) with
  | .inRange b => drive { quiet with efOut := b } s
  | .overflow => drive { quiet with efOut := 0xFF#8, flags := flagBits false true false false } s
  | .underflow => drive { quiet with efOut := 0x00#8, flags := flagBits false false true false } s

/-- PACK (R78): no checking. -/
def execPack (sIn : SignBit) (efIn : ExpField) (mIn : MantField) (s : State) :
    Host.Outcome State Fault Refusal :=
  drive { quiet with r32 := fields32 sIn efIn mIn } s

/-- ENC32 (R80): the word, its fields, its reported exponent, its category and the flags. -/
def execEnc32 (a64 : Bin64) (s : State) : Host.Outcome State Fault Refusal :=
  let r := encode32 s.config.pSubn a64
  drive { quiet with
    r32 := r.word
    sOut := sign32 r.word
    efOut := expf32 r.word
    mfOut := mant32 r.word
    eOut := unbiasExp (expf32 r.word)
    clsOut := (class32 r.word).code
    flags := r.flags } s

end Sys2Proof.Machine
end

