-- ==== Sys2Proof/Machine/Decoder.lean ====
section
/-! DEFINITION. The decoder (41_decoder.md): the value of a field triple as a binary64 pattern, and the
meanings of UNPACK, UNBIAS, DENORM and DEC32. -/

namespace Sys2Proof.Machine

/-- The NaN the decoder drives for every NaN pattern (R102, D6). -/
def canonicalNan64 : Bin64 :=
  0x7FF8000000000000#64

/-- The magnitude of a Subnormal triple, `m × 2^(-149)` (R101). -/
def subnormalMag (m : MantField) : Mag :=
  { sig := m.toNat, ex := -149 }

/-- The magnitude of a Normal triple, `(2^23 + m) × 2^(E - 150)` (R101, R104). -/
def normalMag (ef : ExpField) (m : MantField) : Mag :=
  { sig := 2 ^ 23 + m.toNat, ex := (ef.toNat : Int) - 150 }

/-- `out64(s, E, m)`, the exact value of a field triple as a binary64 pattern (R102). -/
def out64 (s : SignBit) (ef : ExpField) (m : MantField) : Bin64 :=
  match classFields ef m with
  | .zero => fields64 s 0 0
  | .subnormal => enc64 s (subnormalMag m)
  | .normal => enc64 s (normalMag ef m)
  | .infinity => fields64 s 0x7FF#11 0
  | .nan => canonicalNan64

/-- UNPACK (R100). -/
def execUnpack (a32 : Bin32) (s : State) : Host.Outcome State Fault Refusal :=
  drive { quiet with sOut := sign32 a32, efOut := expf32 a32, mfOut := mant32 a32 } s

/-- UNBIAS (R103). -/
def execUnbias (efIn : ExpField) (s : State) : Host.Outcome State Fault Refusal :=
  drive { quiet with eOut := unbiasExp efIn } s

/-- DENORM (R105). -/
def execDenorm (sIn : SignBit) (efIn : ExpField) (mIn : MantField) (s : State) :
    Host.Outcome State Fault Refusal :=
  drive { quiet with
    clsOut := (class32 (fields32 sIn efIn mIn)).code
    r64 := out64 sIn efIn mIn } s

/-- DEC32 (R107): the raw fields for every category, the reported exponent, the category and the
value. -/
def execDec32 (a32 : Bin32) (s : State) : Host.Outcome State Fault Refusal :=
  drive { quiet with
    sOut := sign32 a32
    efOut := expf32 a32
    mfOut := mant32 a32
    eOut := unbiasExp (expf32 a32)
    clsOut := (class32 a32).code
    r64 := out64 (sign32 a32) (expf32 a32) (mant32 a32) } s

end Sys2Proof.Machine
end

