-- ==== Sys2Proof/Machine/Reserved.lean ====
section
/-! DEFINITION. The reserved operation values (R56): each raises ILLEGAL_OP (R132), reading no
operand port. -/

namespace Sys2Proof.Machine

/-- op 0xB (R56, R132). -/
def execReservedB (s : State) : Host.Outcome State Fault Refusal :=
  raiseErr .illegalOp s

/-- op 0xC (R56, R132). -/
def execReservedC (s : State) : Host.Outcome State Fault Refusal :=
  raiseErr .illegalOp s

/-- op 0xD (R56, R132). -/
def execReservedD (s : State) : Host.Outcome State Fault Refusal :=
  raiseErr .illegalOp s

/-- op 0xE (R56, R132). -/
def execReservedE (s : State) : Host.Outcome State Fault Refusal :=
  raiseErr .illegalOp s

/-- op 0xF (R56, R132). -/
def execReservedF (s : State) : Host.Outcome State Fault Refusal :=
  raiseErr .illegalOp s

end Sys2Proof.Machine
end

