-- ==== Sys2Proof/Machine/Dispatch.lean ====
section
/-! DEFINITION. The operation map as meanings (R55): one arm per operation. -/

namespace Sys2Proof.Machine

def exec (i : Instr) (s : State) : Host.Outcome State Fault Refusal :=
  match i with
  -- 40_encoder.md
  | .signx a64 => Sys2Proof.Machine.execSignx a64 s
  | .norm a64 => Sys2Proof.Machine.execNorm a64 s
  | .biase eIn => Sys2Proof.Machine.execBiase eIn s
  | .pack sIn efIn mIn => Sys2Proof.Machine.execPack sIn efIn mIn s
  | .enc32 a64 => Sys2Proof.Machine.execEnc32 a64 s
  -- 41_decoder.md
  | .unpack a32 => Sys2Proof.Machine.execUnpack a32 s
  | .unbias efIn => Sys2Proof.Machine.execUnbias efIn s
  | .denorm sIn efIn mIn => Sys2Proof.Machine.execDenorm sIn efIn mIn s
  | .dec32 a32 => Sys2Proof.Machine.execDec32 a32 s
  -- 42_classifier.md
  | .class32 a32 => Sys2Proof.Machine.execClass32 a32 s
  | .class64 a64 => Sys2Proof.Machine.execClass64 a64 s
  -- 30_encoding.md R56
  | .reservedB => Sys2Proof.Machine.execReservedB s
  | .reservedC => Sys2Proof.Machine.execReservedC s
  | .reservedD => Sys2Proof.Machine.execReservedD s
  | .reservedE => Sys2Proof.Machine.execReservedE s
  | .reservedF => Sys2Proof.Machine.execReservedF s

end Sys2Proof.Machine
end

