-- ==== Sys2Proof/Machine/Step.lean ====
section
/-! DEFINITION. One step: one request and its response (R20, R43, R155). -/

namespace Sys2Proof.Machine

/-- The block evaluates the request on its input ports. It fetches nothing and has no program counter
(R26, R49), so a step adds nothing around exec. -/
def step (s : State) : Host.Outcome State Fault Refusal :=
  exec (decodeRequest (presented s)) s

/-- The request of a table word presented on the input ports, as a host does between steps (log 8). -/
def State.withFetchWord (s : State) (nbits w : Nat) : State :=
  present s (Request.ofWord (BitVec.ofNat 144 (w % 2 ^ nbits)))

end Sys2Proof.Machine
end

