-- ==== Sys2Proof/Machine/Assembler.lean ====
section
/-! DEFINITION. The textual syntax of a request (R62): `MNEMONIC field=value[, field=value ...] ; comment`,
from characters to the request. There are no pseudo-instructions (R63). What R62 leaves to a reader of
text (spaces, a field written twice) is log 6. -/

namespace Sys2Proof.Machine

/-- Why a line is no request. -/
inductive AsmError where
  /-- Not a mnemonic of R55. -/
  | unknownMnemonic
  /-- An item whose left side names no operand port. -/
  | unknownField
  /-- "A field the format does not read may not be written." -/
  | fieldNotRead
  /-- A field written twice. -/
  | repeatedField
  /-- Not one of R62's spellings of a value, or no value at all. -/
  | badValue
  /-- A value that does not fit the port (R42). -/
  | valueTooWide
  deriving DecidableEq, Repr

/-- The mnemonics of R55 and their `op` values. -/
def mnemonics : List (String × BitVec 4) :=
  [("SIGNX", 0x0#4), ("NORM", 0x1#4), ("BIASE", 0x2#4), ("PACK", 0x3#4), ("ENC32", 0x4#4),
   ("UNPACK", 0x5#4), ("UNBIAS", 0x6#4), ("DENORM", 0x7#4), ("DEC32", 0x8#4), ("CLASS32", 0x9#4),
   ("CLASS64", 0xA#4)]

/-- The `op` value a mnemonic names, letter for letter. -/
def opOfMnemonic (cs : List Char) : Option (BitVec 4) :=
  (mnemonics.find? (fun row => row.1.toList == cs)).map (fun row => row.2)

/-- The operand ports and their names in R21. -/
def portNames : List (String × InPort) :=
  [("a64", .a64), ("a32", .a32), ("s_in", .sIn), ("e_in", .eIn), ("ef_in", .efIn), ("m_in", .mIn)]

/-- The operand port a field name names. -/
def portOfName (cs : List Char) : Option InPort :=
  (portNames.find? (fun row => row.1.toList == cs)).map (fun row => row.2)

/-- The widths of R21. -/
def portWidth : InPort → Nat
  | .a64 => 64
  | .a32 => 32
  | .sIn => 1
  | .eIn => 12
  | .efIn => 8
  | .mIn => 23

/-- A value put on one operand port. -/
def setPort (r : Request) (p : InPort) (v : Nat) : Request :=
  match p with
  | .a64 => { r with a64 := BitVec.ofNat 64 v }
  | .a32 => { r with a32 := BitVec.ofNat 32 v }
  | .sIn => { r with sIn := BitVec.ofNat 1 v }
  | .eIn => { r with eIn := BitVec.ofNat 12 v }
  | .efIn => { r with efIn := BitVec.ofNat 8 v }
  | .mIn => { r with mIn := BitVec.ofNat 23 v }

/-- The digits of R62's hexadecimal values, each at the place of its value. -/
def digits : List Char :=
  "0123456789ABCDEF".toList

/-- The value of a digit, a letter in either case (log 6). -/
def digitValue (c : Char) : Option Nat :=
  digits.findIdx? (fun d => d == c.toUpper)

/-- Digits of a base, most-significant first, after a prefix of value `acc`. -/
def readDigits (base acc : Nat) : List Char → Option Nat
  | [] => some acc
  | c :: cs =>
    match digitValue c with
    | some d => if d < base then readDigits base (acc * base + d) cs else none
    | none => none

/-- One or more digits of a base. -/
def readNumber (base : Nat) (cs : List Char) : Option Nat :=
  if cs.isEmpty then none else readDigits base 0 cs

/-- Binary digits, where `_` may separate digits and is ignored. -/
def readBinary (cs : List Char) : Option Nat :=
  if cs.head? = some '_' ∨ cs.getLast? = some '_' then none
  else readNumber 2 (cs.filter (fun c => c != '_'))

/-- A pattern that must fit its port. -/
def fitPort (p : InPort) (v : Option Nat) : Except AsmError Nat :=
  match v with
  | none => .error .badValue
  | some n => if n < 2 ^ portWidth p then .ok n else .error .valueTooWide

/-- `sext_12` of a signed decimal on `e_in` (R62, R57). -/
def fitSigned (negative : Bool) (v : Option Nat) : Except AsmError Nat :=
  match v with
  | none => .error .badValue
  | some n =>
    if negative then (if n ≤ 2048 then .ok ((4096 - n) % 4096) else .error .valueTooWide)
    else (if n ≤ 2047 then .ok n else .error .valueTooWide)

/-- R62's spellings of a value, as the pattern it puts on the port. A signed decimal on `e_in` is written
with `-` or with no sign: DESIGN CHOICE, R62 says only "a signed decimal integer", and a leading `+` is
rejected (log 6). -/
def readValue (p : InPort) (cs : List Char) : Except AsmError Nat :=
  match cs with
  | '0' :: 'x' :: ds => fitPort p (readNumber 16 ds)
  | '0' :: 'b' :: ds => fitPort p (readBinary ds)
  | '-' :: ds => if p = .eIn then fitSigned true (readNumber 10 ds) else .error .badValue
  | ds => if p = .eIn then fitSigned false (readNumber 10 ds) else fitPort p (readNumber 10 ds)

/-- Spaces off both ends. -/
def trimSpaces (cs : List Char) : List Char :=
  ((cs.dropWhile Char.isWhitespace).reverse.dropWhile Char.isWhitespace).reverse

/-- A line without its comment and the spaces around it. -/
def lineCode (line : List Char) : List Char :=
  trimSpaces (line.takeWhile (fun c => c != ';'))

/-- The first word of a line. -/
def lineMnemonic (line : List Char) : List Char :=
  (lineCode line).takeWhile (fun c => !c.isWhitespace)

/-- What stands after the mnemonic, between the commas. -/
def lineItems (line : List Char) : List (List Char) :=
  let rest := trimSpaces ((lineCode line).dropWhile (fun c => !c.isWhitespace))
  if rest.isEmpty then [] else rest.splitOn ','

/-- The left side of `field=value`. -/
def itemName (item : List Char) : List Char :=
  trimSpaces (item.takeWhile (fun c => c != '='))

/-- The right side of `field=value`. -/
def itemValue (item : List Char) : List Char :=
  trimSpaces ((item.dropWhile (fun c => c != '=')).drop 1)

/-- The fields of a line, in any order, put one after another on a request; `seen` are the ports put
already. -/
def assembleFields (f : Format) (r : Request) (seen : List InPort) :
    List (List Char) → Except AsmError Request
  | [] => .ok r
  | item :: items =>
    match portOfName (itemName item) with
    | none => .error .unknownField
    | some p =>
      if f.reads p = false then .error .fieldNotRead
      else if p ∈ seen then .error .repeatedField
      else
        match readValue p (itemValue item) with
        | .error e => .error e
        | .ok v => assembleFields f (setPort r p v) (p :: seen) items

/-- A line of text as the request it stands for, or why it is none (R62). "A field the format reads but
the text omits is 0", and so is a port the format does not read (log 7). -/
def assemble (line : List Char) : Except AsmError Request :=
  match opOfMnemonic (lineMnemonic line) with
  | none => .error .unknownMnemonic
  | some op => assembleFields (formatOf op) { Request.zero with op := op } [] (lineItems line)

end Sys2Proof.Machine
end

