-- ==== Sys2Proof/Machine/Value.lean ====
section
/-! DEFINITION. The values patterns stand for, as exact rationals or specials (R54, R101): the terms in
which claims say what an operation computes. No meaning reads them, and no native float is used (R5). -/

namespace Sys2Proof.Machine

/-- A decoded value: a signed zero, a nonzero finite rational, a signed infinity or NaN (R54, R101). -/
inductive Value where
  | zero (s : SignBit)
  | finite (q : ℚ)
  | infinity (s : SignBit)
  | nan
  deriving DecidableEq, Repr

/-- `(-1)^s × q`. -/
def applySign (s : SignBit) (q : ℚ) : ℚ :=
  if s = 1#1 then -q else q

/-- The value of a field triple, the rows of R101's table. -/
def valFields (s : SignBit) (ef : ExpField) (m : MantField) : Value :=
  if ef.toNat = 0 then
    if m.toNat = 0 then .zero s
    else .finite (applySign s ((m.toNat : ℚ) / 2 ^ 23 * (2 : ℚ) ^ (1 - 127 : ℤ)))
  else if ef.toNat = 255 then
    if m.toNat = 0 then .infinity s else .nan
  else .finite (applySign s ((1 + (m.toNat : ℚ) / 2 ^ 23) * (2 : ℚ) ^ ((ef.toNat : ℤ) - 127)))

/-- `val32(w)` (R101). -/
def val32 (w : Bin32) : Value :=
  valFields (sign32 w) (expf32 w) (mant32 w)

/-- `val64(p)`, the rows of R54's table. -/
def val64 (p : Bin64) : Value :=
  if (expf64 p).toNat = 0 then
    if (mant64 p).toNat = 0 then .zero (sign64 p)
    else .finite (applySign (sign64 p) (((mant64 p).toNat : ℚ) * (2 : ℚ) ^ (-1074 : ℤ)))
  else if (expf64 p).toNat = 2047 then
    if (mant64 p).toNat = 0 then .infinity (sign64 p) else .nan
  else .finite (applySign (sign64 p)
    ((2 ^ 52 + ((mant64 p).toNat : ℚ)) * (2 : ℚ) ^ (((expf64 p).toNat : ℤ) - 1075)))

/-- The rational a dyadic magnitude stands for. -/
def Mag.toRat (q : Mag) : ℚ :=
  (q.sig : ℚ) * (2 : ℚ) ^ q.ex

end Sys2Proof.Machine
end

