-- ==== Sys2Proof/Machine/HostRun.lean ====
section
/-! DEFINITION. The host's side (R157): a request presented and answered, a finite run of requests, any
number of instances served in one interleaving (R46), and the chain of sub-operations of R82. -/

namespace Sys2Proof.Machine

/-- One request/response pair: the host presents, the block answers (R157). -/
def serve (s : State) (r : Request) : Host.Outcome State Fault Refusal :=
  step (present s r)

/-- `exec : Config → Request → Response` (R20): what a block with this strap answers to this request.
It answers every request (R156), so the last two arms are never taken. -/
def response (c : Config) (r : Request) : Response :=
  match step { config := c, inp := r, out := quiet } with
  | .next t => t.out
  | .fault _ => quiet
  | .refused _ => quiet

/-- A run of a host program: its requests in the host's order, and the response to each (R157). It
ends when no further request is issued. -/
def serveAll (s : State) : List Request → List Response
  | [] => []
  | r :: rs =>
    match serve s r with
    | .next t => t.out :: serveAll t rs
    | .fault _ => []
    | .refused _ => []

/-- Any number of instances served in one interleaving (R46): each request goes to the instance named
beside it, and each instance keeps its own ports and strap. -/
def serveMany {n : Nat} (blocks : Vector State n) : List (Fin n × Request) → List Response
  | [] => []
  | (k, r) :: rs =>
    match serve (blocks.get k) r with
    | .next t => t.out :: serveMany (blocks.set k.val t k.isLt) rs
    | .fault _ => []
    | .refused _ => []

/-- The response to an operation. -/
def answer (c : Config) (i : Instr) : Response :=
  response c (requestOf i)

/-- BIASE's response at step 3 of R82's chain, for the input `x`. -/
def chainBiase (c : Config) (x : Bin64) : Response :=
  answer c (.biase (answer c (.norm (answer c (.signx x)).r64)).eOut)

/-- The word R82's chain SIGNX, NORM, BIASE, PACK gives for `x`, with the host's mantissa-zeroing step. -/
def chainWord (c : Config) (x : Bin64) : Bin32 :=
  let sg := answer c (.signx x)
  let nm := answer c (.norm sg.r64)
  let bi := chainBiase c x
  let m := if ovfFlag bi.flags || unfFlag bi.flags then 0 else nm.mfOut
  (answer c (.pack sg.sOut bi.efOut m)).r32

end Sys2Proof.Machine
end

