-- ==== Sys2Proof/Safety.lean ====
section
/-! DEFINITION. What counts as a safe run, and the two conditions a step leaves behind it: the outputs are
those of the inputs (R20, R150), and the response is one the block can drive (R23, R58, R134). -/

namespace Sys2Proof.Machine

/-- The response records no fault of the requesting program (R132, D9). -/
def faultFree (r : Response) : Bool :=
  (recordedFault r).isNone

/-- A run in which no request is a fault of the program. -/
def safeRun (s : State) (rs : List Request) : Bool :=
  (serveAll s rs).all faultFree

/-- "Each output is the function of R20 of the current input ports" (R150). -/
abbrev State.settled (s : State) : Prop :=
  s.out = response s.config s.inp

/-- A response the block can drive: a category code of R58, never error code 3 (R134), every other port
0 beside an error (R23, R131), and not both saturations at once (R76, R77). -/
abbrev Response.legal (r : Response) : Prop :=
  r.clsOut.toNat ≤ 4 ∧ r.err ≠ 3#2 ∧ (r.err ≠ 0#2 → r = { quiet with err := r.err }) ∧
    (ovfFlag r.flags && unfFlag r.flags) = false

end Sys2Proof.Machine
end

