-- ==== Sys2Proof/Certificates/Slice0/Obligations.lean ====
section
/-! DEFINITION. Statements for the provers, from the numbered rules of spec/. Rationals are exact;
`2 ^ e ≤ |q|` with `|q| < 2 ^ (e + 1)` says that `e` is `flog2(|q|)` (R13). -/

open Sys2Proof Sys2Proof.Machine

/-- The last seven lines of R80's pseudocode: the response that carries a result word and flags. -/
def Sys2Proof.Machine.enc32Drives (w : Bin32) (fl : BitVec 4) : Response :=
  { quiet with
    r32 := w
    sOut := w.extractLsb' 31 1
    efOut := w.extractLsb' 23 8
    mfOut := w.extractLsb' 0 23
    eOut := BitVec.ofInt 12 (((w.extractLsb' 23 8).toNat : ℤ) - 127)
    clsOut := (class32 w).code
    flags := fl }

/-! ## Reset, step, decoding -/

/-- R150 says the outputs are the function of the inputs at power-up too. That the inputs read 0 then is
the model's choice (log 4), and the strap's default is R6's (log 2). -/
def Obligations.PowerUpIsSettledAndAnswersItself : Prop :=
  State.reset.settled ∧ State.reset.out.legal ∧ State.reset.config.pSubn = .gradual ∧
    step State.reset = .next State.reset

/-- A step runs the operation the ports present, and adds nothing around exec (R20, R49, R55). -/
def Obligations.StepRunsThePresentedOperation : Prop :=
  (∀ s : State, step s = exec (decodeRequest s.inp) s) ∧
  (∀ (s : State) (w : RequestWord) (i : Instr), decode w = i →
    step (present s (Request.ofWord w)) = exec i (present s (Request.ofWord w))) ∧
  (∀ (s : State) (i : Instr),
    step (s.withFetchWord 144 (encode i).toNat) = exec i (s.withFetchWord 144 (encode i).toNat))

/-- Decode and encode agree for every instruction and every operand (R50, R51, R55). -/
def Obligations.DecodeOfEncodeIsTheInstruction : Prop :=
  ∀ i : Instr, decode (encode i) = i ∧ decodeTableWord 144 (encode i).toNat = some i

/-- The word of R51: each field at its bits, and no bit dropped either way. -/
def Obligations.RequestWordIsItsPorts : Prop :=
  (∀ r : Request,
    r.toWord.extractLsb' 140 4 = r.op ∧ r.toWord.extractLsb' 76 64 = r.a64 ∧
    r.toWord.extractLsb' 44 32 = r.a32 ∧ r.toWord.extractLsb' 43 1 = r.sIn ∧
    r.toWord.extractLsb' 31 12 = r.eIn ∧ r.toWord.extractLsb' 23 8 = r.efIn ∧
    r.toWord.extractLsb' 0 23 = r.mIn) ∧
  (∀ w : RequestWord, (Request.ofWord w).toWord = w)

/-- Words of 95_test_vectors.md, programs P1, P3 and P5, and section 2.12. -/
def Obligations.SpecWordsDecodeToTheirOperations : Prop :=
  decode 0x0401A0000000000000000000000000000000#144 = .signx 0x401A000000000000#64 ∧
  decode 0x147F00000000000000000000000000000000#144 = .norm 0x47F0000000000000#64 ∧
  decode 0x20000000000000000000000007BD80000000#144 = .biase 0xF7B#12 ∧
  decode 0x300000000000000000000000000040D00000#144 = .pack 0#1 0x81#8 0x500000#23 ∧
  decode 0x43FB999999999999A0000000000000000000#144 = .enc32 0x3FB999999999999A#64 ∧
  decode 0x800000000000000003DCCCCCC00000000000#144 = .dec32 0x3DCCCCCC#32 ∧
  decode 0x900000000000000007F80000000000000000#144 = .class32 0x7F800000#32 ∧
  decode 0xC4028C000000000004146000000000000000#144 = .reservedC

/-- An operation is the same whatever stands on the ports its format does not read (R21, R50). -/
def Obligations.UnreadPortsDoNotChangeTheOperation : Prop :=
  ∀ r₁ r₂ : Request, r₁.op = r₂.op →
    (∀ p : InPort, (formatOf r₁.op).reads p = true → operandValue r₁ p = operandValue r₂ p) →
    decodeRequest r₁ = decodeRequest r₂

/-- `op` alone selects the operation, and each of its 16 values one operation (R55, R56). -/
def Obligations.OpSelectsTheOperation : Prop :=
  (∀ r : Request, (requestOf (decodeRequest r)).op = r.op) ∧
  (∀ r : Request, (decodeRequest r).opIsDefined = true ↔ r.op.toNat ≤ 0xA)

/-! ## The encoder -/

/-- SIGNX (R72): its op and operand, and what it drives. -/
def Obligations.SignxDrivesSignAndClearedPattern : Prop :=
  (∀ r : Request, r.op = 0x0#4 → decodeRequest r = .signx r.a64) ∧
  (∀ (x : Bin64) (s : State),
    (class64 x = .nan → exec (.signx x) s = .next { s with out :=
      { quiet with sOut := 0#1, r64 := x &&& 0x7FFFFFFFFFFFFFFF#64 } }) ∧
    (class64 x ≠ .nan → exec (.signx x) s = .next { s with out :=
      { quiet with sOut := BitVec.ofNat 1 (x.toNat / 2 ^ 63), r64 := x &&& 0x7FFFFFFFFFFFFFFF#64 } }))

/-- SIGNX's `r64` is `|x|` (R72), by the value function of R54: `|−0| = +0`, `|±∞| = +∞`. -/
def Obligations.SignxMagnitudeIsTheAbsoluteValue : Prop :=
  ∀ (x : Bin64) (s : State), ∃ t, exec (.signx x) s = .next t ∧
    (∀ q, val64 x = .finite q → val64 t.out.r64 = .finite |q| ∧ (t.out.sOut = 1#1 ↔ q < 0)) ∧
    (∀ g, val64 x = .zero g → val64 t.out.r64 = .zero 0#1 ∧ t.out.sOut = g) ∧
    (∀ g, val64 x = .infinity g → val64 t.out.r64 = .infinity 0#1 ∧ t.out.sOut = g) ∧
    (val64 x = .nan → val64 t.out.r64 = .nan ∧ t.out.sOut = 0#1)

/-- NORM (R74): its op and operand; DOMAIN on an infinity or a NaN; the zero case; and for a finite nonzero
operand of either sign `norm23` of its magnitude, written out (R71): exponent `flog2`, mantissa
`floor(t) - 2^23`, `exact` when `t = |q| × 2^(23 - e)` is an integer. Exponent and mantissa fit their ports. -/
def Obligations.NormIsNorm23OfTheMagnitude : Prop :=
  (∀ r : Request, r.op = 0x1#4 → decodeRequest r = .norm r.a64) ∧
  (∀ (x : Bin64) (s : State), class64 x = .infinity ∨ class64 x = .nan →
    exec (.norm x) s = .next { s with out := { quiet with err := 0b10#2 } }) ∧
  (∀ (x : Bin64) (s : State), class64 x = .zero →
    exec (.norm x) s = .next { s with out := { quiet with flags := 0b1001#4 } }) ∧
  (∀ (x : Bin64) (s : State) (q : ℚ) (e : ℤ), val64 x = .finite q →
    (2 : ℚ) ^ e ≤ |q| → |q| < (2 : ℚ) ^ (e + 1) →
    (-1074 ≤ e ∧ e ≤ 1023 ∧ 0 ≤ ⌊|q| * (2 : ℚ) ^ (23 - e)⌋ - 2 ^ 23 ∧
      ⌊|q| * (2 : ℚ) ^ (23 - e)⌋ - 2 ^ 23 < 2 ^ 23) ∧
    exec (.norm x) s = .next { s with out :=
      { quiet with
        eOut := BitVec.ofInt 12 e
        mfOut := BitVec.ofInt 23 (⌊|q| * (2 : ℚ) ^ (23 - e)⌋ - 2 ^ 23)
        flags := if Int.fract (|q| * (2 : ℚ) ^ (23 - e)) = 0 then 0b0001#4 else 0b0000#4 } })

/-- DOMAIN (R133): NORM of an infinity or NaN; and, R133's own inference from R80, nothing ENC32 does. -/
def Obligations.NormOfNonFiniteRaisesDomain : Prop :=
  (∀ (x : Bin64) (s : State), class64 x = .infinity ∨ class64 x = .nan →
    exec (.norm x) s = .next { s with out := { quiet with err := 0b10#2 } } ∧
    recordedFault { quiet with err := 0b10#2 } = some .domain) ∧
  (∀ (x : Bin64) (s t : State), exec (.enc32 x) s = .next t → t.out.err = 0b00#2)

/-- NORM ignores the operand's sign bit (R74, D13). -/
def Obligations.NormIgnoresTheSignBit : Prop :=
  ∀ (x : Bin64) (s : State), exec (.norm x) s = exec (.norm (x ^^^ 0x8000000000000000#64)) s

/-- The bit-level form of `norm23` gives what NORM drives, for binary64 normals and subnormals. The form is
the spec's inference: R75, "derived: from rule R71 and 30_encoding.md rule R54". -/
def Obligations.NormHasTheBitLevelForm : Prop :=
  ∀ (x : Bin64) (s : State),
    (1 ≤ (expf64 x).toNat → (expf64 x).toNat ≤ 2046 →
      exec (.norm x) s = .next { s with out :=
        { quiet with
          eOut := BitVec.ofInt 12 (((expf64 x).toNat : ℤ) - 1023)
          mfOut := x.extractLsb' 29 23
          flags := if x.extractLsb' 0 29 = 0#29 then 0b0001#4 else 0b0000#4 } }) ∧
    (∀ p : ℕ, (expf64 x).toNat = 0 → 2 ^ p ≤ (mant64 x).toNat → (mant64 x).toNat < 2 ^ (p + 1) →
      (23 ≤ p → exec (.norm x) s = .next { s with out :=
        { quiet with
          eOut := BitVec.ofInt 12 ((p : ℤ) - 1074)
          mfOut := BitVec.ofNat 23 (((mant64 x).toNat - 2 ^ p) / 2 ^ (p - 23))
          flags := if ((mant64 x).toNat - 2 ^ p) % 2 ^ (p - 23) = 0 then 0b0001#4 else 0b0000#4 } }) ∧
      (p < 23 → exec (.norm x) s = .next { s with out :=
        { quiet with
          eOut := BitVec.ofInt 12 ((p : ℤ) - 1074)
          mfOut := BitVec.ofNat 23 (((mant64 x).toNat - 2 ^ p) * 2 ^ (23 - p))
          flags := 0b0001#4 } }))

/-- BIASE (R76): its op and operand, and the exact sum `b = e + 127` against `[1, 254]`. -/
def Obligations.BiaseAddsTheBiasAndSaturates : Prop :=
  (∀ r : Request, r.op = 0x2#4 → decodeRequest r = .biase r.eIn) ∧
  (∀ (p : ExpPort) (s : State),
    (1 ≤ p.toInt + 127 → p.toInt + 127 ≤ 254 →
      exec (.biase p) s = .next { s with out :=
        { quiet with efOut := BitVec.ofInt 8 (p.toInt + 127), flags := 0b0000#4 } }) ∧
    (255 ≤ p.toInt + 127 →
      exec (.biase p) s = .next { s with out := { quiet with efOut := 0xFF#8, flags := 0b0010#4 } }) ∧
    (p.toInt + 127 ≤ 0 →
      exec (.biase p) s = .next { s with out := { quiet with efOut := 0x00#8, flags := 0b0100#4 } }))

/-- PACK (R78): its op and operands; bit 31 is `s_in`, bits 30 to 23 `ef_in`, bits 22 to 0 `m_in`. -/
def Obligations.PackPlacesTheFields : Prop :=
  (∀ r : Request, r.op = 0x3#4 → decodeRequest r = .pack r.sIn r.efIn r.mIn) ∧
  (∀ (g : SignBit) (ef : ExpField) (m : MantField) (s : State),
    exec (.pack g ef m) s = .next { s with out :=
      { quiet with r32 := BitVec.ofNat 32 (g.toNat * 2 ^ 31 + ef.toNat * 2 ^ 23 + m.toNat) } })

/-- The canonical NaN (R79): whatever the input NaN's sign and payload. -/
def Obligations.Enc32OfNanIsCanonical : Prop :=
  ∀ (x : Bin64) (s : State), (expf64 x).toNat = 2047 → (mant64 x).toNat ≠ 0 →
    exec (.enc32 x) s = .next { s with out :=
      { quiet with
        r32 := 0x7FC00000#32, sOut := 0#1, efOut := 0xFF#8, mfOut := 0x400000#23,
        eOut := 0x080#12, clsOut := 0b100#3, flags := 0b0001#4 } }

/-- ENC32 is the whole encoder of R80, by exact rationals: its op and operand, the special inputs, the
normal range, overflow, and underflow under either value of the strap. -/
def Obligations.Enc32IsTheWholeEncoder : Prop :=
  (∀ r : Request, r.op = 0x4#4 → decodeRequest r = .enc32 r.a64) ∧
  (∀ (x : Bin64) (s : State),
    (class64 x = .nan →
      exec (.enc32 x) s = .next { s with out := enc32Drives 0x7FC00000#32 0b0001#4 }) ∧
    (class64 x = .infinity → exec (.enc32 x) s = .next
      { s with out := enc32Drives (x.extractLsb' 63 1 ++ 0xFF#8 ++ 0#23) 0b0001#4 }) ∧
    (class64 x = .zero → exec (.enc32 x) s = .next
      { s with out := enc32Drives (x.extractLsb' 63 1 ++ 0x00#8 ++ 0#23) 0b1001#4 }) ∧
    (∀ (q : ℚ) (e : ℤ), val64 x = .finite q → (2 : ℚ) ^ e ≤ |q| → |q| < (2 : ℚ) ^ (e + 1) →
      (1 ≤ e + 127 → e + 127 ≤ 254 → exec (.enc32 x) s = .next
        { s with out := enc32Drives
                          (x.extractLsb' 63 1 ++ BitVec.ofInt 8 (e + 127) ++
                          BitVec.ofInt 23 (⌊|q| * (2 : ℚ) ^ (23 - e)⌋ - 2 ^ 23))
                          (if Int.fract (|q| * (2 : ℚ) ^ (23 - e)) = 0 then 0b0001#4 else 0b0000#4) }) ∧
      (255 ≤ e + 127 → exec (.enc32 x) s = .next
        { s with out := enc32Drives (x.extractLsb' 63 1 ++ 0xFF#8 ++ 0#23) 0b0010#4 }) ∧
      (e + 127 ≤ 0 → s.config.pSubn = .flush → exec (.enc32 x) s = .next
        { s with out := enc32Drives (x.extractLsb' 63 1 ++ 0x00#8 ++ 0#23) 0b1100#4 }) ∧
      (e + 127 ≤ 0 → s.config.pSubn = .gradual → ⌊|q| * (2 : ℚ) ^ (149 : ℤ)⌋ = 0 →
        exec (.enc32 x) s = .next
          { s with out := enc32Drives (x.extractLsb' 63 1 ++ 0x00#8 ++ 0#23) 0b1100#4 }) ∧
      (e + 127 ≤ 0 → s.config.pSubn = .gradual → ⌊|q| * (2 : ℚ) ^ (149 : ℤ)⌋ ≠ 0 →
        exec (.enc32 x) s = .next
          { s with out := enc32Drives
                            (x.extractLsb' 63 1 ++ 0x00#8 ++ BitVec.ofInt 23 ⌊|q| * (2 : ℚ) ^ (149 : ℤ)⌋)
                            (if Int.fract (|q| * (2 : ℚ) ^ (149 : ℤ)) = 0 then 0b0101#4 else 0b0100#4) })))

/-- The out-of-range policy by magnitude: overflow from 2^128 on and never below it, a signed zero
under FLUSH below 2^(-126), and the truncation to a multiple of 2^(-149) under GRADUAL. In part the spec's
inference (R77: "derived: from rules R71 and R73"). -/
def Obligations.Enc32OutOfRangeByMagnitude : Prop :=
  ∀ (x : Bin64) (s : State) (q : ℚ), val64 x = .finite q → ∃ t, exec (.enc32 x) s = .next t ∧
    ((2 : ℚ) ^ (128 : ℤ) ≤ |q| → t.out.r32 = x.extractLsb' 63 1 ++ 0xFF#8 ++ 0#23) ∧
    (|q| < (2 : ℚ) ^ (128 : ℤ) → ovfFlag t.out.flags = false ∧ class32 t.out.r32 ≠ .infinity) ∧
    (|q| < (2 : ℚ) ^ (128 : ℤ) → (2 ^ 24 - 1) * (2 : ℚ) ^ (104 : ℤ) ≤ |q| →
      t.out.r32 = x.extractLsb' 63 1 ++ 0xFE#8 ++ 0x7FFFFF#23) ∧
    (|q| < (2 : ℚ) ^ (-126 : ℤ) → s.config.pSubn = .flush →
      t.out.r32 = x.extractLsb' 63 1 ++ 0x00#8 ++ 0#23) ∧
    (|q| < (2 : ℚ) ^ (-126 : ℤ) → s.config.pSubn = .gradual →
      ⌊|q| * (2 : ℚ) ^ (149 : ℤ)⌋ < 2 ^ 23 ∧
      t.out.r32 = x.extractLsb' 63 1 ++ 0x00#8 ++ BitVec.ofInt 23 ⌊|q| * (2 : ℚ) ^ (149 : ℤ)⌋)

/-- Truncation, never rounding up (R73, R81(e)): in the normal range the encoded value has the input's
sign, its magnitude is not above the input's, and it falls short by less than one unit of the last of
the 23 mantissa bits. -/
def Obligations.Enc32TruncatesTheMagnitude : Prop :=
  ∀ (x : Bin64) (s : State) (q : ℚ) (e : ℤ), val64 x = .finite q →
    (2 : ℚ) ^ e ≤ |q| → |q| < (2 : ℚ) ^ (e + 1) → -126 ≤ e → e ≤ 127 →
    ∃ (t : State) (v : ℚ), exec (.enc32 x) s = .next t ∧ val32 t.out.r32 = .finite v ∧
      (0 < v ↔ 0 < q) ∧ (2 : ℚ) ^ e ≤ |v| ∧ |v| ≤ |q| ∧ |q| - |v| < (2 : ℚ) ^ (e - 23)

/-- `exact` (R24): "the encoded value equals the input value", for every input but NaN, whose `exact`
is 1. -/
def Obligations.Enc32ExactMeansTheSameValue : Prop :=
  ∀ (c : Config) (x : Bin64),
    (class64 x ≠ .nan → (exactFlag (answer c (.enc32 x)).flags = true ↔
      val32 (answer c (.enc32 x)).r32 = val64 x)) ∧
    (class64 x = .nan → exactFlag (answer c (.enc32 x)).flags = true)

/-- `zero`, `ovf` and `unf` of ENC32 (R24). -/
def Obligations.Enc32FlagsReportZeroAndSaturation : Prop :=
  ∀ (c : Config) (x : Bin64),
    (zeroFlag (answer c (.enc32 x)).flags = true ↔
      ∃ g, val32 (answer c (.enc32 x)).r32 = .zero g) ∧
    (ovfFlag (answer c (.enc32 x)).flags = true ↔
      ∃ q, val64 x = .finite q ∧ (2 : ℚ) ^ (128 : ℤ) ≤ |q|) ∧
    (unfFlag (answer c (.enc32 x)).flags = true ↔
      ∃ q, val64 x = .finite q ∧ |q| < (2 : ℚ) ^ (-126 : ℤ))

/-- The strap matters to ENC32 alone, and there exactly to the magnitudes that GRADUAL makes subnormal
(R6, R77). -/
def Obligations.StrapMattersOnlyToSubnormalResults : Prop :=
  ∀ r : Request, response { pSubn := .gradual } r ≠ response { pSubn := .flush } r ↔
    r.op = 0x4#4 ∧ ∃ q, val64 r.a64 = .finite q ∧ (2 : ℚ) ^ (-149 : ℤ) ≤ |q| ∧
      |q| < (2 : ℚ) ^ (-126 : ℤ)

/-- The chain SIGNX, NORM, BIASE, PACK re-creates ENC32 for every finite nonzero input with `ovf`, with
neither saturation, or with `unf` under FLUSH. The spec's inference (R82 and T2, "derived: from rules R72,
R74, R76, R78 and R80"). -/
def Obligations.ChainRecreatesEnc32 : Prop :=
  ∀ (c : Config) (x : Bin64), class64 x = .normal ∨ class64 x = .subnormal →
    (unfFlag (chainBiase c x).flags = false ∨ c.pSubn = .flush) →
    chainWord c x = (answer c (.enc32 x)).r32

/-! ## The decoder -/

/-- UNPACK (R100): its op and operand, and the three fields by arithmetic. -/
def Obligations.UnpackSplitsTheWord : Prop :=
  (∀ r : Request, r.op = 0x5#4 → decodeRequest r = .unpack r.a32) ∧
  (∀ (w : Bin32) (s : State), exec (.unpack w) s = .next { s with out :=
    { quiet with
      sOut := BitVec.ofNat 1 (w.toNat / 2 ^ 31)
      efOut := BitVec.ofNat 8 (w.toNat / 2 ^ 23)
      mfOut := BitVec.ofNat 23 w.toNat } })

/-- UNBIAS (R103): its op and operand, and `ef_in − 127` without wrap-around. -/
def Obligations.UnbiasSubtractsTheBias : Prop :=
  (∀ r : Request, r.op = 0x6#4 → decodeRequest r = .unbias r.efIn) ∧
  (∀ (ef : ExpField) (s : State),
    exec (.unbias ef) s = .next { s with out :=
      { quiet with eOut := BitVec.ofInt 12 ((ef.toNat : ℤ) - 127) } } ∧
    (BitVec.ofInt 12 ((ef.toNat : ℤ) - 127)).toInt = (ef.toNat : ℤ) - 127)

/-- UNPACK undoes PACK, and UNBIAS undoes BIASE on the in-range interval. The spec's inferences (R100 and
R103, each "derived: from 40_encoder.md" rules). -/
def Obligations.SubOperationsUndoEachOther : Prop :=
  (∀ (c : Config) (g : SignBit) (ef : ExpField) (m : MantField),
    answer c (.unpack (answer c (.pack g ef m)).r32) = { quiet with sOut := g, efOut := ef, mfOut := m }) ∧
  (∀ (c : Config) (p : ExpPort), -126 ≤ p.toInt → p.toInt ≤ 127 →
    (answer c (.unbias (answer c (.biase p)).efOut)).eOut = p)

/-- DENORM (R105): its op and operands; the category and, on `r64`, the exact value of R101's table, a NaN
pattern giving the canonical NaN; and both as DEC32 of the packed triple gives them. -/
def Obligations.DenormGivesTheExactValue : Prop :=
  (∀ r : Request, r.op = 0x7#4 → decodeRequest r = .denorm r.sIn r.efIn r.mIn) ∧
  (∀ (g : SignBit) (ef : ExpField) (m : MantField) (s : State), ∃ v : Bin64,
    exec (.denorm g ef m) s = .next { s with out :=
      { quiet with clsOut := (class32 (g ++ ef ++ m)).code, r64 := v } } ∧
    val64 v = valFields g ef m ∧
    (class32 (g ++ ef ++ m) = .nan → v = 0x7FF8000000000000#64) ∧
    (answer s.config (.dec32 (g ++ ef ++ m))).r64 = v ∧
    (answer s.config (.dec32 (g ++ ef ++ m))).clsOut = (class32 (g ++ ef ++ m)).code)

/-- DENORM in `out64`'s bit-by-bit form, one clause per category of the triple. The form is the spec's
inference (R102: "derived: from the definition of `enc64`"). -/
def Obligations.DenormHasTheBitLevelForm : Prop :=
  ∀ (g : SignBit) (ef : ExpField) (m : MantField) (s : State),
    (ef.toNat = 0 → m.toNat = 0 → exec (.denorm g ef m) s = .next { s with out :=
      { quiet with clsOut := 0b000#3, r64 := g ++ 0#11 ++ 0#52 } }) ∧
    (∀ p : ℕ, ef.toNat = 0 → 2 ^ p ≤ m.toNat → m.toNat < 2 ^ (p + 1) →
      exec (.denorm g ef m) s = .next { s with out :=
        { quiet with
          clsOut := 0b001#3
          r64 := g ++ BitVec.ofNat 11 (p + 874) ++ BitVec.ofNat 52 ((m.toNat - 2 ^ p) * 2 ^ (52 - p)) } }) ∧
    (1 ≤ ef.toNat → ef.toNat ≤ 254 → exec (.denorm g ef m) s = .next { s with out :=
      { quiet with clsOut := 0b010#3, r64 := g ++ BitVec.ofNat 11 (ef.toNat + 896) ++ m ++ 0#29 } }) ∧
    (ef.toNat = 255 → m.toNat = 0 → exec (.denorm g ef m) s = .next { s with out :=
      { quiet with clsOut := 0b011#3, r64 := g ++ 0x7FF#11 ++ 0#52 } }) ∧
    (ef.toNat = 255 → m.toNat ≠ 0 → exec (.denorm g ef m) s = .next { s with out :=
      { quiet with clsOut := 0b100#3, r64 := 0x7FF8000000000000#64 } })

/-- DEC32 (R107): its op and operand, the raw fields, the reported exponent, the category, and on `r64` the exact value of
R101's table, a NaN pattern giving the canonical NaN. -/
def Obligations.Dec32GivesTheExactValue : Prop :=
  (∀ r : Request, r.op = 0x8#4 → decodeRequest r = .dec32 r.a32) ∧
  (∀ (w : Bin32) (s : State), ∃ v : Bin64,
    exec (.dec32 w) s = .next { s with out :=
      { quiet with
        sOut := w.extractLsb' 31 1
        efOut := w.extractLsb' 23 8
        mfOut := w.extractLsb' 0 23
        eOut := BitVec.ofInt 12 (((w.extractLsb' 23 8).toNat : ℤ) - 127)
        clsOut := (class32 w).code
        r64 := v } } ∧
    val64 v = val32 w ∧ (class32 w = .nan → v = 0x7FF8000000000000#64))

/-- DENORM of a pattern's fields gives the same `r64` and `cls_out` as DEC32 of the pattern, and so does
CLASS32 for `cls_out`; ENC32's own `cls_out` is CLASS32 of its word. The spec's inference (R124, "derived:
from rules R120, R121, 41_decoder.md rules R105 and R107"). -/
def Obligations.OneClassification : Prop :=
  ∀ (c : Config) (w : Bin32) (x : Bin64),
    (answer c (.denorm (answer c (.unpack w)).sOut (answer c (.unpack w)).efOut
      (answer c (.unpack w)).mfOut)).r64 = (answer c (.dec32 w)).r64 ∧
    (answer c (.denorm (answer c (.unpack w)).sOut (answer c (.unpack w)).efOut
      (answer c (.unpack w)).mfOut)).clsOut = (answer c (.class32 w)).clsOut ∧
    (answer c (.dec32 w)).clsOut = (answer c (.class32 w)).clsOut ∧
    (answer c (.enc32 x)).clsOut = (answer c (.class32 (answer c (.enc32 x)).r32)).clsOut

/-- Decoding then encoding gives the pattern back: every non-NaN pattern under GRADUAL, every non-NaN,
non-subnormal pattern under FLUSH, and the canonical NaN for a NaN. The spec's inference (R108 and T3,
"derived: from 40_encoder.md rule R80 and rule R102"). -/
def Obligations.EncodeOfDecodeIsThePattern : Prop :=
  ∀ (c : Config) (w : Bin32),
    (class32 w ≠ .nan → (c.pSubn = .gradual ∨ class32 w ≠ .subnormal) →
      (answer c (.enc32 (answer c (.dec32 w)).r64)).r32 = w) ∧
    (class32 w = .nan → (answer c (.enc32 (answer c (.dec32 w)).r64)).r32 = 0x7FC00000#32)

/-- Encoding then decoding gives an exactly representable input back, bit for bit. The spec's inference
(R81(a), "derived: from rule R80 and 41_decoder.md rule R107"). -/
def Obligations.DecodeOfExactEncodeIsTheInput : Prop :=
  ∀ (c : Config) (x : Bin64), class64 x ≠ .nan → exactFlag (answer c (.enc32 x)).flags = true →
    (answer c (.dec32 (answer c (.enc32 x)).r32)).r64 = x

/-- ENC32 is idempotent through the decoder. The spec's inference (T4 of 95_test_vectors.md, "derived: from
the named rules", as it "follows from T3"). -/
def Obligations.Enc32IsIdempotentThroughDec32 : Prop :=
  ∀ (c : Config) (x : Bin64), class64 x ≠ .nan →
    (answer c (.enc32 (answer c (.dec32 (answer c (.enc32 x)).r32)).r64)).r32 =
      (answer c (.enc32 x)).r32

/-- Sign fidelity, special-value closure and the exponent bias law (R81(b) to (d)). -/
def Obligations.Dec32OfEnc32KeepsSignClassAndExponent : Prop :=
  ∀ (c : Config) (x : Bin64),
    (class64 x ≠ .nan → (answer c (.dec32 (answer c (.enc32 x)).r32)).sOut = x.extractLsb' 63 1) ∧
    (class64 x = .zero ∨ class64 x = .infinity ∨ class64 x = .nan →
      (answer c (.dec32 (answer c (.enc32 x)).r32)).clsOut = (class64 x).code) ∧
    (answer c (.dec32 (answer c (.enc32 x)).r32)).eOut.toInt =
      ((answer c (.enc32 x)).efOut.toNat : ℤ) - 127

/-! ## The classifier -/

/-- CLASS32 (R121): its op and operand, the category by where the pattern without its sign bit falls, and the raw sign. -/
def Obligations.Class32ByRange : Prop :=
  (∀ r : Request, r.op = 0x9#4 → decodeRequest r = .class32 r.a32) ∧
  (∀ (w : Bin32) (s : State),
    exec (.class32 w) s = .next { s with out :=
      { quiet with
        sOut := BitVec.ofNat 1 (w.toNat / 2 ^ 31)
        clsOut :=
          if w.toNat % 2 ^ 31 = 0 then 0b000#3
          else if w.toNat % 2 ^ 31 < 0x00800000 then 0b001#3
          else if w.toNat % 2 ^ 31 < 0x7F800000 then 0b010#3
          else if w.toNat % 2 ^ 31 = 0x7F800000 then 0b011#3
          else 0b100#3 } })

/-- CLASS64 (R123), likewise. -/
def Obligations.Class64ByRange : Prop :=
  (∀ r : Request, r.op = 0xA#4 → decodeRequest r = .class64 r.a64) ∧
  (∀ (x : Bin64) (s : State),
    exec (.class64 x) s = .next { s with out :=
      { quiet with
        sOut := BitVec.ofNat 1 (x.toNat / 2 ^ 63)
        clsOut :=
          if x.toNat % 2 ^ 63 = 0 then 0b000#3
          else if x.toNat % 2 ^ 63 < 0x0010000000000000 then 0b001#3
          else if x.toNat % 2 ^ 63 < 0x7FF0000000000000 then 0b010#3
          else if x.toNat % 2 ^ 63 = 0x7FF0000000000000 then 0b011#3
          else 0b100#3 } })

/-! ## Errors -/

/-- ILLEGAL_OP (R132): a request with a reserved `op`, whatever its operand ports hold; the same for the
five operations that stand for them. -/
def Obligations.ReservedOpRaisesIllegalOp : Prop :=
  (∀ s : State, 0xB ≤ s.inp.op.toNat →
    step s = .next { s with out := { quiet with err := 0b01#2 } }) ∧
  (∀ s : State, ∀ i ∈ [Instr.reservedB, .reservedC, .reservedD, .reservedE, .reservedF],
    exec i s = .next { s with out := { quiet with err := 0b01#2 } }) ∧
  recordedFault { quiet with err := 0b01#2 } = some .illegalOp

/-- Which requests raise which error (R130, R134, R136): none for a well-formed one, ILLEGAL_OP for a
reserved operation, DOMAIN for NORM outside its domain, and never code 3. -/
def Obligations.ErrorsAreThoseOfIllFormedRequests : Prop :=
  ∀ (i : Instr) (s : State), ∃ t, exec i s = .next t ∧
    (t.out.err = 0b00#2 ↔ i.wellFormed = true) ∧
    (t.out.err = 0b01#2 ↔ i.opIsDefined = false) ∧
    (t.out.err = 0b10#2 ↔ i.operandInDomain = false) ∧
    t.out.err ≠ 0b11#2

/-- A run is safe exactly when every request of it is well formed (R132, R133, D9). -/
def Obligations.SafeRunsAreRunsOfWellFormedRequests : Prop :=
  ∀ (s : State) (rs : List Request),
    safeRun s rs = true ↔ ∀ r ∈ rs, (decodeRequest r).wellFormed = true

/-! ## The whole block -/

/-- "For every request, each output port that the operation's rule does not drive is 0", and beside an
error every port but `err` (R23). -/
def Obligations.UndrivenOutputsAreZero : Prop :=
  ∀ (s : State) (p : OutPort), ∃ t, step s = .next t ∧
    (drives s.inp.op p = false → portValue t.out p = 0) ∧
    (t.out.err ≠ 0b00#2 → portValue t.out p = 0)

/-- Every request completes, a reserved op with its error response (R156), and the frame of every
operation: it changes nothing but the output ports. -/
def Obligations.EveryRequestCompletes : Prop :=
  (∀ s : State, ∃ t, step s = .next t ∧ (0xB ≤ s.inp.op.toNat → t.out = { quiet with err := 0b01#2 })) ∧
  (∀ (i : Instr) (s : State), ∃ r, exec i s = .next { s with out := r })

/-- "Two requests with equal op and equal operand ports, on instances with equal P_SUBN, give equal
responses" (R29): whatever stood on the outputs before and on the ports the operation does not read. -/
def Obligations.EqualRequestsGetEqualResponses : Prop :=
  ∀ s₁ s₂ : State, s₁.config = s₂.config → s₁.inp.op = s₂.inp.op →
    (∀ p : InPort, (formatOf s₁.inp.op).reads p = true →
      operandValue s₁.inp p = operandValue s₂.inp p) →
    ∃ t₁ t₂, step s₁ = .next t₁ ∧ step s₂ = .next t₂ ∧ t₁.out = t₂.out

/-- What exec leaves on the outputs is the block's answer to the instruction (R20): a function of the
strap and the instruction. -/
def Obligations.ExecDrivesTheAnswer : Prop :=
  ∀ (i : Instr) (s : State), exec i s = .next { s with out := answer s.config i }

/-- The rules (a) to (c) of R46, over one instance's run and any interleaving of requests to any number of
instances: every request gets the response it would get alone, whatever the other requests are and whatever
the other instances hold or are asked. -/
def Obligations.ResponsesAreIndependent : Prop :=
  (∀ (s : State) (rs : List Request), serveAll s rs = rs.map (response s.config)) ∧
  (∀ (n : ℕ) (blocks : Vector State n) (rs : List (Fin n × Request)),
    serveMany blocks rs = rs.map (fun x => response (blocks.get x.1).config x.2))

/-- An invariant every step keeps: the response on the outputs is one the block can drive (R23, R58, R134)
and is the function of the request on the inputs (R150). One step brings any state at all into it. -/
def Obligations.StepKeepsOutputsSettledAndLegal : Prop :=
  (∀ s t : State, s.settled ∧ s.out.legal → step s = .next t → t.settled ∧ t.out.legal) ∧
  (∀ s : State, ∃ t, step s = .next t ∧ t.settled ∧ t.out.legal)

/-- Atomic, without side effects, idempotent (R43): all outputs belong to the one request, the strap and the
input ports stay, and "a repeated request gives the same response". -/
def Obligations.RepeatedRequestIsIdempotent : Prop :=
  ∀ s : State, ∃ t, step s = .next t ∧ t.out = answer s.config (decodeRequest s.inp) ∧
    t.config = s.config ∧ t.inp = s.inp ∧ step t = .next t

/-- The range of every value on `e_out` (R57). -/
def Obligations.ReportedExponentsStayInRange : Prop :=
  ∀ (c : Config) (i : Instr),
    (-1074 ≤ (answer c i).eOut.toInt ∧ (answer c i).eOut.toInt ≤ 1023) ∧
    ((∀ x, i ≠ .norm x) → -127 ≤ (answer c i).eOut.toInt ∧ (answer c i).eOut.toInt ≤ 128)

/-- A line of text that assembles (R62): its mnemonic names the operation, each of its fields is one the
format reads and puts its value on its port, and every port it does not write is 0. R62 says so of a field
the format reads and the text omits; on a port the format does not read the 0 is the model's choice (log 7). -/
def Obligations.AssembledLineIsOneOperation : Prop :=
  ∀ (line : List Char) (r : Request), assemble line = .ok r →
    opOfMnemonic (lineMnemonic line) = some r.op ∧ (decodeRequest r).opIsDefined = true ∧
    (∀ item ∈ lineItems line, ∃ p, portOfName (itemName item) = some p ∧
      (formatOf r.op).reads p = true ∧ readValue p (itemValue item) = .ok (operandValue r p)) ∧
    (∀ p : InPort, (∀ item ∈ lineItems line, portOfName (itemName item) ≠ some p) →
      operandValue r p = 0) ∧
    requestOf (decodeRequest r) = r

/-- Which lines assemble (R62): those of a known mnemonic whose fields the format reads, each with a readable
value. That no field is written twice is the model's choice (log 6). -/
def Obligations.LineAssemblesExactlyWhenItsFieldsAreReadable : Prop :=
  ∀ line : List Char, (∃ r, assemble line = .ok r) ↔
    ∃ op, opOfMnemonic (lineMnemonic line) = some op ∧
      (∀ item ∈ lineItems line, ∃ p v, portOfName (itemName item) = some p ∧
        (formatOf op).reads p = true ∧ readValue p (itemValue item) = .ok v) ∧
      ((lineItems line).map (fun item => portOfName (itemName item))).Nodup

/-- The spellings of a value (R62): on every port hexadecimal digits (as the spec's listings write them, in
capitals), binary digits and decimal digits, most significant first and with any number of leading zeros,
stand for the number they spell; a signed decimal on `e_in` stands for its `sext_12` pattern, a number too
wide for its port (R42) for none, and `_` between binary digits for nothing.
That hexadecimal letters are read in small and in mixed case too is the model's choice (log 6). Unsigned
decimals above 2047 on `e_in`, a leading `+` and `_` at an end are left out, being the model's choice as well
(log 6). -/
def Obligations.ValueSpellingsStandForTheirNumbers : Prop :=
  (∀ (p : InPort) (k n : ℕ), n < 2 ^ portWidth p →
    readValue p ('0' :: 'x' :: (List.replicate k '0' ++ Nat.toDigits 16 n).map Char.toUpper) = .ok n ∧
    (∀ ds : List Char,
      ds.map Char.toUpper = (List.replicate k '0' ++ Nat.toDigits 16 n).map Char.toUpper →
      readValue p ('0' :: 'x' :: ds) = .ok n) ∧
    readValue p ('0' :: 'b' :: (List.replicate k '0' ++ Nat.toDigits 2 n)) = .ok n ∧
    (p ≠ .eIn → readValue p (List.replicate k '0' ++ Nat.toDigits 10 n) = .ok n)) ∧
  (∀ k n : ℕ, n ≤ 2047 →
    readValue .eIn (List.replicate k '0' ++ Nat.toDigits 10 n) = .ok (BitVec.ofInt 12 (n : ℤ)).toNat) ∧
  (∀ k n : ℕ, n ≤ 2048 →
    readValue .eIn ('-' :: (List.replicate k '0' ++ Nat.toDigits 10 n)) =
      .ok (BitVec.ofInt 12 (-(n : ℤ))).toNat) ∧
  (∀ (p : InPort) (k n : ℕ), 2 ^ portWidth p ≤ n →
    readValue p ('0' :: 'x' :: (List.replicate k '0' ++ Nat.toDigits 16 n).map Char.toUpper) =
        .error .valueTooWide ∧
    readValue p ('0' :: 'b' :: (List.replicate k '0' ++ Nat.toDigits 2 n)) = .error .valueTooWide ∧
    (p ≠ .eIn → readValue p (List.replicate k '0' ++ Nat.toDigits 10 n) = .error .valueTooWide)) ∧
  (∀ (p : InPort) (ds : List Char), ds.head? ≠ some '_' → ds.getLast? ≠ some '_' →
    readValue p ('0' :: 'b' :: ds) = readValue p ('0' :: 'b' :: ds.filter (fun c => c != '_')))
end

