-- ==== Sys2Proof/Laws/Assembler.lean ====
section
/-! SUPPORT. The assembler's port operation and the values it puts (R62, R42). -/

namespace Sys2Proof.Machine

@[simp] theorem setPort_op (r : Request) (p : InPort) (v : Nat) : (setPort r p v).op = r.op := by
  cases p <;> rfl

/-- The port written holds the value, if it fits. -/
theorem operandValue_setPort_self (r : Request) (p : InPort) (v : Nat) (h : v < 2 ^ portWidth p) :
    operandValue (setPort r p v) p = v := by
  cases p <;> simp only [setPort, operandValue, portWidth, BitVec.toNat_ofNat] at * <;> omega

/-- Every other port is as before. -/
theorem operandValue_setPort_of_ne (r : Request) {p p' : InPort} (v : Nat) (h : p ≠ p') :
    operandValue (setPort r p v) p' = operandValue r p' := by
  cases p <;> cases p' <;> first | exact absurd rfl h | rfl

theorem fitPort_lt {p : InPort} {v : Option Nat} {n : Nat} (h : fitPort p v = .ok n) :
    n < 2 ^ portWidth p := by
  unfold fitPort at h
  split at h
  · cases h
  · split_ifs at h with hn
    cases h
    exact hn

theorem fitSigned_lt {b : Bool} {v : Option Nat} {n : Nat} (h : fitSigned b v = .ok n) :
    n < 2 ^ portWidth .eIn := by
  unfold fitSigned at h
  simp only [portWidth]
  split at h
  · cases h
  · split_ifs at h <;> injection h <;> omega

/-- A value that reads fits its port (R42). -/
theorem readValue_lt {p : InPort} {cs : List Char} {n : Nat} (h : readValue p cs = .ok n) :
    n < 2 ^ portWidth p := by
  unfold readValue at h
  split at h
  · exact fitPort_lt h
  · exact fitPort_lt h
  · split_ifs at h with hp
    subst hp
    exact fitSigned_lt h
  · split_ifs at h with hp
    · subst hp
      exact fitSigned_lt h
    · exact fitPort_lt h

end Sys2Proof.Machine
end

