-- ==== Sys2Proof/Laws/Fields.lean ====
section
/-! SUPPORT. Fields, flags and categories as arithmetic: every extraction and concatenation is moved to
toNat once, so that later proofs are linear arithmetic. -/

namespace Sys2Proof.Machine

@[simp] theorem toNat_sign32 (w : Bin32) : (sign32 w).toNat = w.toNat / 2 ^ 31 := by
  have := w.isLt
  simp only [sign32, BitVec.extractLsb'_toNat, Nat.shiftRight_eq_div_pow]
  omega

@[simp] theorem toNat_expf32 (w : Bin32) : (expf32 w).toNat = w.toNat / 2 ^ 23 % 2 ^ 8 := by
  simp only [expf32, BitVec.extractLsb'_toNat, Nat.shiftRight_eq_div_pow]

@[simp] theorem toNat_mant32 (w : Bin32) : (mant32 w).toNat = w.toNat % 2 ^ 23 := by
  simp only [mant32, BitVec.extractLsb'_toNat, Nat.shiftRight_zero]

@[simp] theorem toNat_fields32 (s : SignBit) (ef : ExpField) (m : MantField) :
    (fields32 s ef m).toNat = s.toNat * 2 ^ 31 + ef.toNat * 2 ^ 23 + m.toNat := by
  have hs := s.isLt
  have he := ef.isLt
  have hm := m.isLt
  unfold fields32
  rw [BitVec.toNat_append, BitVec.toNat_append, ← Nat.shiftLeft_add_eq_or_of_lt (by omega),
    ← Nat.shiftLeft_add_eq_or_of_lt (by omega)]
  simp only [Nat.shiftLeft_eq]
  omega

@[simp] theorem sign32_fields32 (s : SignBit) (ef : ExpField) (m : MantField) :
    sign32 (fields32 s ef m) = s := by
  have hs := s.isLt
  have he := ef.isLt
  have hm := m.isLt
  apply BitVec.eq_of_toNat_eq
  rw [toNat_sign32, toNat_fields32]
  omega

@[simp] theorem expf32_fields32 (s : SignBit) (ef : ExpField) (m : MantField) :
    expf32 (fields32 s ef m) = ef := by
  have hs := s.isLt
  have he := ef.isLt
  have hm := m.isLt
  apply BitVec.eq_of_toNat_eq
  rw [toNat_expf32, toNat_fields32]
  omega

@[simp] theorem mant32_fields32 (s : SignBit) (ef : ExpField) (m : MantField) :
    mant32 (fields32 s ef m) = m := by
  have hs := s.isLt
  have he := ef.isLt
  have hm := m.isLt
  apply BitVec.eq_of_toNat_eq
  rw [toNat_mant32, toNat_fields32]
  omega

/-- A binary32 word is its three fields (R52). -/
@[simp] theorem fields32_parts (w : Bin32) : fields32 (sign32 w) (expf32 w) (mant32 w) = w := by
  have hw := w.isLt
  apply BitVec.eq_of_toNat_eq
  rw [toNat_fields32, toNat_sign32, toNat_expf32, toNat_mant32]
  omega

@[simp] theorem toNat_sign64 (p : Bin64) : (sign64 p).toNat = p.toNat / 2 ^ 63 := by
  have := p.isLt
  simp only [sign64, BitVec.extractLsb'_toNat, Nat.shiftRight_eq_div_pow]
  omega

@[simp] theorem toNat_expf64 (p : Bin64) : (expf64 p).toNat = p.toNat / 2 ^ 52 % 2 ^ 11 := by
  simp only [expf64, BitVec.extractLsb'_toNat, Nat.shiftRight_eq_div_pow]

@[simp] theorem toNat_mant64 (p : Bin64) : (mant64 p).toNat = p.toNat % 2 ^ 52 := by
  simp only [mant64, BitVec.extractLsb'_toNat, Nat.shiftRight_zero]

@[simp] theorem toNat_clearSign64 (p : Bin64) : (clearSign64 p).toNat = p.toNat % 2 ^ 63 := by
  unfold clearSign64
  rw [BitVec.toNat_append, ← Nat.shiftLeft_add_eq_or_of_lt (BitVec.isLt _)]
  simp only [BitVec.extractLsb'_toNat, Nat.shiftRight_zero, BitVec.toNat_ofNat, Nat.shiftLeft_eq]
  omega

@[simp] theorem toNat_fields64 (s : SignBit) (e : BitVec 11) (f : BitVec 52) :
    (fields64 s e f).toNat = s.toNat * 2 ^ 63 + e.toNat * 2 ^ 52 + f.toNat := by
  have hs := s.isLt
  have he := e.isLt
  have hf := f.isLt
  unfold fields64
  rw [BitVec.toNat_append, BitVec.toNat_append, ← Nat.shiftLeft_add_eq_or_of_lt (by omega),
    ← Nat.shiftLeft_add_eq_or_of_lt (by omega)]
  simp only [Nat.shiftLeft_eq]
  omega

@[simp] theorem sign64_fields64 (s : SignBit) (e : BitVec 11) (f : BitVec 52) :
    sign64 (fields64 s e f) = s := by
  have hs := s.isLt
  have he := e.isLt
  have hf := f.isLt
  apply BitVec.eq_of_toNat_eq
  rw [toNat_sign64, toNat_fields64]
  omega

@[simp] theorem expf64_fields64 (s : SignBit) (e : BitVec 11) (f : BitVec 52) :
    expf64 (fields64 s e f) = e := by
  have hs := s.isLt
  have he := e.isLt
  have hf := f.isLt
  apply BitVec.eq_of_toNat_eq
  rw [toNat_expf64, toNat_fields64]
  omega

@[simp] theorem mant64_fields64 (s : SignBit) (e : BitVec 11) (f : BitVec 52) :
    mant64 (fields64 s e f) = f := by
  have hs := s.isLt
  have he := e.isLt
  have hf := f.isLt
  apply BitVec.eq_of_toNat_eq
  rw [toNat_mant64, toNat_fields64]
  omega

/-- A binary64 word is its three fields (R53). -/
@[simp] theorem fields64_parts (p : Bin64) : fields64 (sign64 p) (expf64 p) (mant64 p) = p := by
  have hp := p.isLt
  apply BitVec.eq_of_toNat_eq
  rw [toNat_fields64, toNat_sign64, toNat_expf64, toNat_mant64]
  omega

@[simp] theorem exactFlag_flagBits (x o u z : Bool) : exactFlag (flagBits x o u z) = x := by
  revert x o u z
  decide

@[simp] theorem ovfFlag_flagBits (x o u z : Bool) : ovfFlag (flagBits x o u z) = o := by
  revert x o u z
  decide

@[simp] theorem unfFlag_flagBits (x o u z : Bool) : unfFlag (flagBits x o u z) = u := by
  revert x o u z
  decide

@[simp] theorem zeroFlag_flagBits (x o u z : Bool) : zeroFlag (flagBits x o u z) = z := by
  revert x o u z
  decide

@[simp] theorem ovfFlag_zero : ovfFlag 0 = false := rfl
@[simp] theorem unfFlag_zero : unfFlag 0 = false := rfl

@[simp] theorem class32_fields32 (s : SignBit) (ef : ExpField) (m : MantField) :
    class32 (fields32 s ef m) = classFields ef m := by
  simp only [class32, expf32_fields32, mant32_fields32]

/-- The five rows of R120, by numbers. -/
theorem classFields_eq (ef : ExpField) (m : MantField) :
    classFields ef m =
      if ef.toNat = 0 then (if m.toNat = 0 then .zero else .subnormal)
      else if ef.toNat = 255 then (if m.toNat = 0 then .infinity else .nan)
      else .normal := by
  simp only [classFields, BitVec.toNat_eq, BitVec.toNat_ofNat]
  rfl

/-- The five rows of R54, by numbers. -/
theorem class64_eq (p : Bin64) :
    class64 p =
      if (expf64 p).toNat = 0 then (if (mant64 p).toNat = 0 then .zero else .subnormal)
      else if (expf64 p).toNat = 2047 then (if (mant64 p).toNat = 0 then .infinity else .nan)
      else .normal := by
  simp only [class64, BitVec.toNat_eq]
  rfl

theorem code_injective {a b : Category} (h : a.code = b.code) : a = b := by
  cases a <;> cases b <;> first | rfl | exact absurd h (by decide)

theorem code_le_four (c : Category) : c.code.toNat ≤ 4 := by
  cases c <;> decide

end Sys2Proof.Machine
end

