-- ==== Sys2Proof/Laws/Magnitude.lean ====
section
/-! SUPPORT. What the exact arithmetic on dyadic magnitudes computes, over the rationals (R13, R54, R71). -/

namespace Sys2Proof.Machine

@[simp] theorem toRat_scale (q : Mag) (k : Int) : (q.scale k).toRat = q.toRat * (2 : ℚ) ^ k := by
  simp only [Mag.scale, Mag.toRat, zpow_add₀ (two_ne_zero : (2 : ℚ) ≠ 0), mul_assoc]

theorem toRat_nonneg (q : Mag) : 0 ≤ q.toRat := by
  unfold Mag.toRat
  positivity

theorem toRat_pos (q : Mag) (h : q.sig ≠ 0) : 0 < q.toRat := by
  have : 0 < q.sig := Nat.pos_of_ne_zero h
  unfold Mag.toRat
  positivity

/-- A dyadic magnitude with digits below the binary point is a quotient of naturals. -/
theorem toRat_of_neg (q : Mag) (h : ¬ 0 ≤ q.ex) :
    q.toRat = (q.sig : ℚ) / ((2 ^ (-q.ex).toNat : ℕ) : ℚ) := by
  unfold Mag.toRat
  have : q.ex = -((-q.ex).toNat : ℤ) := by omega
  conv_lhs => rw [this]
  rw [zpow_neg, zpow_natCast]
  push_cast
  rfl

/-- `floor` is the greatest integer below (R13). -/
theorem floor_spec (q : Mag) : (q.floor : ℤ) = ⌊q.toRat⌋ := by
  by_cases h : 0 ≤ q.ex
  · have : q.toRat = ((q.sig * 2 ^ q.ex.toNat : ℕ) : ℚ) := by
      unfold Mag.toRat
      conv_lhs => rw [show q.ex = (q.ex.toNat : ℤ) by omega]
      rw [zpow_natCast]
      push_cast
      rfl
    rw [this, Int.floor_natCast]
    simp only [Mag.floor, h, if_true, Nat.shiftLeft_eq]
  · rw [toRat_of_neg q h, Rat.floor_natCast_div_natCast]
    simp only [Mag.floor, h, if_false, Nat.shiftRight_eq_div_pow]
    rfl

/-- `isInt` says that no fraction is left (R13). -/
theorem isInt_spec (q : Mag) : q.isInt = true ↔ (q.floor : ℚ) = q.toRat := by
  by_cases h : 0 ≤ q.ex
  · simp only [Mag.isInt, Mag.floor, h, if_true, true_iff, Nat.shiftLeft_eq]
    unfold Mag.toRat
    conv_rhs => rw [show q.ex = (q.ex.toNat : ℤ) by omega]
    rw [zpow_natCast]
    push_cast
    rfl
  · rw [toRat_of_neg q h]
    simp only [Mag.isInt, Mag.floor, h, if_false, beq_iff_eq, Nat.shiftLeft_eq,
      Nat.shiftRight_eq_div_pow]
    have hp : ((2 ^ (-q.ex).toNat : ℕ) : ℚ) ≠ 0 := by positivity
    rw [eq_div_iff hp]
    exact_mod_cast Iff.rfl

/-- `flog2` is the binary exponent (R13). -/
theorem flog2_spec (q : Mag) (h : q.sig ≠ 0) :
    (2 : ℚ) ^ q.flog2 ≤ q.toRat ∧ q.toRat < (2 : ℚ) ^ (q.flog2 + 1) := by
  have hlo : 2 ^ Nat.log2 q.sig ≤ q.sig := Nat.log2_self_le h
  have hhi : q.sig < 2 ^ (Nat.log2 q.sig + 1) := Nat.lt_log2_self
  have hp : (0 : ℚ) < (2 : ℚ) ^ q.ex := by positivity
  unfold Mag.flog2 Mag.toRat
  constructor
  · rw [zpow_add₀ two_ne_zero, zpow_natCast]
    exact mul_le_mul_of_nonneg_right (by exact_mod_cast hlo) hp.le
  · rw [show (Nat.log2 q.sig : ℤ) + q.ex + 1 = ((Nat.log2 q.sig + 1 : ℕ) : ℤ) + q.ex by push_cast; ring,
      zpow_add₀ two_ne_zero, zpow_natCast]
    exact mul_lt_mul_of_pos_right (by exact_mod_cast hhi) hp

/-- Only one integer is the binary exponent of a rational (R13). -/
theorem binary_exponent_unique {x : ℚ} {a b : ℤ} (ha : (2 : ℚ) ^ a ≤ x) (ha' : x < (2 : ℚ) ^ (a + 1))
    (hb : (2 : ℚ) ^ b ≤ x) (hb' : x < (2 : ℚ) ^ (b + 1)) : a = b := by
  have h1 := (zpow_lt_zpow_iff_right₀ (one_lt_two : (1 : ℚ) < 2)).mp (lt_of_le_of_lt ha hb')
  have h2 := (zpow_lt_zpow_iff_right₀ (one_lt_two : (1 : ℚ) < 2)).mp (lt_of_le_of_lt hb ha')
  omega

/-- The mantissa of `norm23` fits 23 bits (R71). -/
theorem norm23_floor_bounds (q : Mag) (h : q.sig ≠ 0) :
    2 ^ 23 ≤ (q.scale (23 - q.flog2)).floor ∧ (q.scale (23 - q.flog2)).floor < 2 ^ 24 := by
  obtain ⟨hlo, hhi⟩ := flog2_spec q h
  have hp : (0 : ℚ) < (2 : ℚ) ^ (23 - q.flog2) := by positivity
  have key : (2 : ℚ) ^ (23 : ℤ) ≤ (q.scale (23 - q.flog2)).toRat ∧
      (q.scale (23 - q.flog2)).toRat < (2 : ℚ) ^ (24 : ℤ) := by
    rw [toRat_scale]
    constructor
    · calc (2 : ℚ) ^ (23 : ℤ) = (2 : ℚ) ^ q.flog2 * (2 : ℚ) ^ (23 - q.flog2) := by
            rw [← zpow_add₀ two_ne_zero]
            congr 1
            ring
        _ ≤ _ := mul_le_mul_of_nonneg_right hlo hp.le
    · calc q.toRat * (2 : ℚ) ^ (23 - q.flog2)
          < (2 : ℚ) ^ (q.flog2 + 1) * (2 : ℚ) ^ (23 - q.flog2) := mul_lt_mul_of_pos_right hhi hp
        _ = _ := by
            rw [← zpow_add₀ two_ne_zero]
            congr 1
            ring
  have hf := floor_spec (q.scale (23 - q.flog2))
  have h1 : (2 ^ 23 : ℤ) ≤ ⌊(q.scale (23 - q.flog2)).toRat⌋ := by
    rw [Int.le_floor]
    exact_mod_cast key.1
  have h2 : ⌊(q.scale (23 - q.flog2)).toRat⌋ < (2 ^ 24 : ℤ) := by
    rw [Int.floor_lt]
    exact_mod_cast key.2
  constructor <;> omega

/-- The magnitude of a finite nonzero pattern has a nonzero significand. -/
theorem mag64_sig_ne_zero (p : Bin64) (h : class64 p ≠ .zero) : (mag64 p).sig ≠ 0 := by
  unfold mag64
  by_cases he : expf64 p = 0
  · simp only [he, if_true]
    intro hm
    exact h (by simp [class64, he, BitVec.toNat_eq, hm])
  · simp only [he, if_false]
    omega

/-- A finite value is `mag64` with the sign applied (R54, R70). -/
theorem val64_eq_finite (p : Bin64) (h : class64 p = .normal ∨ class64 p = .subnormal) :
    val64 p = .finite (applySign (sign64 p) (mag64 p).toRat) := by
  rw [class64_eq] at h
  unfold val64 mag64
  simp only [BitVec.toNat_eq (x := expf64 p)]
  split_ifs at h ⊢ <;> simp_all [Mag.toRat]
  norm_num

end Sys2Proof.Machine
end

