-- ==== Sys2Proof/Laws/Codec.lean ====
section
/-! SUPPORT. What the encoder's shared operations give, in the terms of the statements: rationals for
magnitudes, intervals for biased exponents (R71, R76, R77). -/

namespace Sys2Proof.Machine

theorem abs_applySign (g : SignBit) (q : ℚ) (h : 0 ≤ q) : |applySign g q| = q := by
  unfold applySign
  split <;> simp [abs_of_nonneg h]

/-- Only finite nonzero patterns have a rational value. -/
theorem class64_of_finite {x : Bin64} {q : ℚ} (h : val64 x = .finite q) :
    class64 x = .normal ∨ class64 x = .subnormal := by
  rw [class64_eq]
  unfold val64 at h
  split_ifs at h ⊢ <;> simp_all

/-- `mag64` is the absolute value (R54). -/
theorem abs_eq_mag64 {x : Bin64} {q : ℚ} (h : val64 x = .finite q) : |q| = (mag64 x).toRat := by
  rw [val64_eq_finite x (class64_of_finite h)] at h
  injection h with h
  rw [← h, abs_applySign _ _ (toRat_nonneg _)]

theorem mag64_sig_ne_zero_of_finite {x : Bin64} (h : class64 x = .normal ∨ class64 x = .subnormal) :
    (mag64 x).sig ≠ 0 :=
  mag64_sig_ne_zero x (by rcases h with h | h <;> rw [h] <;> decide)

/-- The exponent of a value is the exponent `flog2` finds (R13). -/
theorem eq_flog2_of_finite {x : Bin64} {q : ℚ} {e : ℤ} (h : val64 x = .finite q)
    (h1 : (2 : ℚ) ^ e ≤ |q|) (h2 : |q| < (2 : ℚ) ^ (e + 1)) : e = (mag64 x).flog2 := by
  obtain ⟨a, b⟩ := flog2_spec _ (mag64_sig_ne_zero_of_finite (class64_of_finite h))
  rw [abs_eq_mag64 h] at h1 h2
  exact binary_exponent_unique h1 h2 a b

/-- The magnitude of a finite nonzero pattern, by its fields (R54). -/
theorem mag64_cases {x : Bin64} (h : class64 x = .normal ∨ class64 x = .subnormal) :
    (class64 x = .normal ∧ 1 ≤ (expf64 x).toNat ∧ (expf64 x).toNat ≤ 2046 ∧
      mag64 x = ⟨2 ^ 52 + (mant64 x).toNat, ((expf64 x).toNat : Int) - 1075⟩) ∨
    (class64 x = .subnormal ∧ (expf64 x).toNat = 0 ∧ (mant64 x).toNat ≠ 0 ∧
      mag64 x = ⟨(mant64 x).toNat, -1074⟩) := by
  have h1 := (expf64 x).isLt
  have hz : expf64 x = 0 ↔ (expf64 x).toNat = 0 := by
    rw [BitVec.toNat_eq]
    rfl
  unfold mag64
  simp only [hz]
  rw [class64_eq] at h ⊢
  split_ifs at h ⊢ with a b b b <;> simp at h
  · exact .inr ⟨rfl, a, b, rfl⟩
  · exact .inl ⟨rfl, by omega, by omega, rfl⟩

/-- The range of the exponent (R16). -/
theorem flog2_mag64_range {x : Bin64} (h : class64 x = .normal ∨ class64 x = .subnormal) :
    -1074 ≤ (mag64 x).flog2 ∧ (mag64 x).flog2 ≤ 1023 := by
  have hm := (mant64 x).isLt
  unfold Mag.flog2
  rcases mag64_cases h with ⟨-, a, b, e⟩ | ⟨-, a, b, e⟩ <;> rw [e] <;> simp only
  · have : Nat.log2 (2 ^ 52 + (mant64 x).toNat) < 53 := (Nat.log2_lt (by omega)).2 (by omega)
    omega
  · have : Nat.log2 (mant64 x).toNat < 52 := (Nat.log2_lt b).2 hm
    omega

/-- `is_int` by the fractional part (R13). -/
theorem isInt_eq_fract (q : Mag) : q.isInt = decide (Int.fract q.toRat = 0) := by
  rw [Bool.eq_iff_iff, isInt_spec, decide_eq_true_iff, Int.fract, sub_eq_zero, ← floor_spec,
    Int.cast_natCast]
  exact eq_comm

/-- `norm23` over the rationals (R71). -/
theorem norm23_spec (q : Mag) (h : q.sig ≠ 0) :
    (norm23 q).e = q.flog2 ∧
    ((norm23 q).mant : ℤ) = ⌊q.toRat * (2 : ℚ) ^ (23 - q.flog2)⌋ - 2 ^ 23 ∧
    (norm23 q).exact = decide (Int.fract (q.toRat * (2 : ℚ) ^ (23 - q.flog2)) = 0) := by
  have hb := (norm23_floor_bounds q h).1
  refine ⟨rfl, ?_, ?_⟩
  · rw [← toRat_scale, ← floor_spec]
    show (((q.scale (23 - q.flog2)).floor - 2 ^ 23 : ℕ) : ℤ) = _
    omega
  · rw [← toRat_scale]
    exact isInt_eq_fract _

/-- The subnormal mantissa over the rationals (R77). -/
theorem floor_scale149 (q : Mag) : ((q.scale 149).floor : ℤ) = ⌊q.toRat * (2 : ℚ) ^ (149 : ℤ)⌋ := by
  rw [floor_spec, toRat_scale]

theorem isInt_scale149 (q : Mag) :
    (q.scale 149).isInt = decide (Int.fract (q.toRat * (2 : ℚ) ^ (149 : ℤ)) = 0) := by
  rw [isInt_eq_fract, toRat_scale]

/-- The three outcomes of biasing (R76). -/
theorem biasExp_of_inRange {e : Int} (h1 : 1 ≤ e + 127) (h2 : e + 127 ≤ 254) :
    biasExp e = .inRange (BitVec.ofInt 8 (e + 127)) := by
  unfold biasExp zext
  rw [if_neg (by omega), if_pos h1, ← BitVec.ofInt_natCast, Int.toNat_of_nonneg (by omega)]

theorem biasExp_of_overflow {e : Int} (h : 255 ≤ e + 127) : biasExp e = .overflow := by
  unfold biasExp
  rw [if_pos h]

theorem biasExp_of_underflow {e : Int} (h : e + 127 ≤ 0) : biasExp e = .underflow := by
  unfold biasExp
  rw [if_neg (by omega), if_neg (by omega)]

end Sys2Proof.Machine
end

