-- ==== Sys2Proof/Laws/PerInstr.lean ====
section
/-! SUPPORT. Statements about every instruction as syntax, one lemma a constructor. -/

namespace Sys2Proof.Laws.OpField

/-- The top four bits of an instruction's word are the `op` value of its request (R51, R55). -/
def Statement (i : Instr) : Prop :=
  (encode i).extractLsb' 140 4 = (requestOf i).op

/-- The `op` port of any request is bits 143 to 140 of its word. -/
theorem of_request (r : Request) : r.toWord.extractLsb' 140 4 = r.op := by
  have h0 := r.op.isLt
  have h1 := r.a64.isLt
  have h2 := r.a32.isLt
  have h3 := r.sIn.isLt
  have h4 := r.eIn.isLt
  have h5 := r.efIn.isLt
  have h6 := r.mIn.isLt
  apply BitVec.eq_of_toNat_eq
  simp only [BitVec.extractLsb'_toNat, Nat.shiftRight_eq_div_pow]
  unfold Request.toWord
  repeat rw [BitVec.toNat_append, ← Nat.shiftLeft_add_eq_or_of_lt (BitVec.isLt _)]
  simp only [Nat.shiftLeft_eq]
  omega

theorem signx (a64 : Bin64) : Statement (.signx a64) := of_request _
theorem norm (a64 : Bin64) : Statement (.norm a64) := of_request _
theorem biase (eIn : ExpPort) : Statement (.biase eIn) := of_request _
theorem pack (sIn : SignBit) (efIn : ExpField) (mIn : MantField) : Statement (.pack sIn efIn mIn) :=
  of_request _
theorem enc32 (a64 : Bin64) : Statement (.enc32 a64) := of_request _
theorem unpack (a32 : Bin32) : Statement (.unpack a32) := of_request _
theorem unbias (efIn : ExpField) : Statement (.unbias efIn) := of_request _
theorem denorm (sIn : SignBit) (efIn : ExpField) (mIn : MantField) : Statement (.denorm sIn efIn mIn) :=
  of_request _
theorem dec32 (a32 : Bin32) : Statement (.dec32 a32) := of_request _
theorem class32 (a32 : Bin32) : Statement (.class32 a32) := of_request _
theorem class64 (a64 : Bin64) : Statement (.class64 a64) := of_request _
theorem reservedB : Statement .reservedB := of_request _
theorem reservedC : Statement .reservedC := of_request _
theorem reservedD : Statement .reservedD := of_request _
theorem reservedE : Statement .reservedE := of_request _
theorem reservedF : Statement .reservedF := of_request _

end Sys2Proof.Laws.OpField
end

