-- ==== Sys2Proof/Laws/State.lean ====
section
/-! SUPPORT. One lemma per field per update of State, and what the shared operations over the ports do. -/

namespace Sys2Proof.Machine

@[simp] theorem presented_eq (s : State) : presented s = s.inp := rfl

@[simp] theorem present_config (s : State) (r : Request) : (present s r).config = s.config := rfl
@[simp] theorem present_inp (s : State) (r : Request) : (present s r).inp = r := rfl
@[simp] theorem present_out (s : State) (r : Request) : (present s r).out = s.out := rfl
@[simp] theorem present_present (s : State) (q r : Request) : present (present s q) r = present s r := rfl
@[simp] theorem present_self (s : State) : present s s.inp = s := rfl

@[simp] theorem withFetchWord_config (s : State) (n w : Nat) :
    (s.withFetchWord n w).config = s.config := rfl
@[simp] theorem withFetchWord_inp (s : State) (n w : Nat) :
    (s.withFetchWord n w).inp = Request.ofWord (BitVec.ofNat 144 (w % 2 ^ n)) := rfl
@[simp] theorem withFetchWord_out (s : State) (n w : Nat) : (s.withFetchWord n w).out = s.out := rfl

@[simp] theorem setOut_config (s : State) (r : Response) : { s with out := r }.config = s.config := rfl
@[simp] theorem setOut_inp (s : State) (r : Response) : { s with out := r }.inp = s.inp := rfl
@[simp] theorem setOut_out (s : State) (r : Response) : { s with out := r }.out = r := rfl
@[simp] theorem setOut_setOut (s : State) (q r : Response) :
    { { s with out := q } with out := r } = { s with out := r } := rfl

/-- What driving a response can do: answer next, with the response on the ports and nothing else changed. -/
theorem drive_eq_next_iff (r : Response) (s t : State) :
    drive r s = .next t ↔ t = { s with out := r } := by
  constructor
  · intro h
    cases h
    rfl
  · rintro rfl
    rfl

/-- What raising an error can do (R131). -/
theorem raiseErr_eq_next_iff (e : ErrCode) (s t : State) :
    raiseErr e s = .next t ↔ t = { s with out := { quiet with err := e.code } } :=
  drive_eq_next_iff _ _ _

/-- A step is exec of the operation presented. -/
theorem step_eq_exec (s : State) : step s = exec (decodeRequest s.inp) s := rfl

end Sys2Proof.Machine
end

