-- ==== Sys2Proof/Tests/Slice0.lean ====
section
/-! SUPPORT. The model's own tests. Expected values are those of spec/95_test_vectors.md (its section is
named) or written out from the encoding tables of spec/30_encoding.md. Below them, one witness for each
statement that has hypotheses, at the boundary values of its clauses. -/

namespace Sys2Proof.Tests
open Sys2Proof Sys2Proof.Machine

/-- The two straps. -/
def gradual : Config := { pSubn := .gradual }
def flush : Config := { pSubn := .flush }

/-- A block with an operation's request on its ports. -/
def holding (c : Config) (i : Instr) : State :=
  { config := c, inp := requestOf i, out := quiet }

/-- What one step leaves on the output ports, or nothing if it stops. -/
def stepOut (c : Config) (i : Instr) : Option Response :=
  match step (holding c i) with
  | .next t => some t.out
  | .fault _ => none
  | .refused _ => none

/-! ## WellFormed: one ill-formed term for each check -/

theorem test_wellFormed_refuses_reserved :
    Instr.reservedB.opIsDefined = false ∧ Instr.reservedB.wellFormed = false := by decide

theorem test_wellFormed_refuses_norm_of_infinity :
    (Instr.norm 0x7FF0000000000000#64).operandInDomain = false ∧
      (Instr.norm 0xFFF8000000000000#64).wellFormed = false := by decide

theorem test_wellFormed_accepts :
    (Instr.norm 0x7FEFFFFFFFFFFFFF#64).wellFormed = true ∧
      (Instr.pack 1#1 0xFF#8 1#23).wellFormed = true := by decide

/-! ## Decoding: words laid out field by field, as R51's table orders them
(op, a64, a32, s_in, e_in, ef_in, m_in) -/

/-- A word from the fields' bits, most significant field first (R51). -/
def word (op : BitVec 4) (a64 : BitVec 64) (a32 : BitVec 32) (sIn : BitVec 1) (eIn : BitVec 12)
    (efIn : BitVec 8) (mIn : BitVec 23) : BitVec 144 :=
  op ++ a64 ++ a32 ++ sIn ++ eIn ++ efIn ++ mIn

/-- Every operand port carries something here, so a format that read the wrong one would show. -/
def busy (op : BitVec 4) : BitVec 144 :=
  word op 0x8123456789ABCDEF#64 0xC1460001#32 0b1#1 0b100000000011#12 0b10000001#8
    0b10100000000000000000001#23

theorem test_decode_f64 :
    decode (busy 0b0000#4) = .signx 0x8123456789ABCDEF#64 ∧
    decode (busy 0b0001#4) = .norm 0x8123456789ABCDEF#64 ∧
    decode (busy 0b0100#4) = .enc32 0x8123456789ABCDEF#64 ∧
    decode (busy 0b1010#4) = .class64 0x8123456789ABCDEF#64 := by decide

theorem test_decode_f32 :
    decode (busy 0b0101#4) = .unpack 0xC1460001#32 ∧
    decode (busy 0b1000#4) = .dec32 0xC1460001#32 ∧
    decode (busy 0b1001#4) = .class32 0xC1460001#32 := by decide

theorem test_decode_fields :
    decode (busy 0b0010#4) = .biase 0x803#12 ∧
    decode (busy 0b0110#4) = .unbias 0x81#8 ∧
    decode (busy 0b0011#4) = .pack 1#1 0x81#8 0x500001#23 ∧
    decode (busy 0b0111#4) = .denorm 1#1 0x81#8 0x500001#23 := by decide

theorem test_decode_reserved :
    decode (busy 0b1011#4) = .reservedB ∧ decode (busy 0b1100#4) = .reservedC ∧
    decode (busy 0b1101#4) = .reservedD ∧ decode (busy 0b1110#4) = .reservedE ∧
    decode (busy 0b1111#4) = .reservedF := by decide

/-- 30_encoding.md R51: BIASE with `e_in = 3` has bits 143 to 140 at 2 and bits 32 and 31 at 1. -/
theorem test_decode_by_bit_position :
    decodeTableWord 144 (2 * 2 ^ 140 + 2 ^ 32 + 2 ^ 31) = some (.biase 3#12) := by decide

theorem test_decode_rejects_a_wide_number :
    decodeNat (2 ^ 144) = .error .wordTooWide ∧ decodeTableWord 145 (2 ^ 144) = none := by decide

/-! ## One step each, from 95_test_vectors.md -/

/-- 2.1: a NaN's sign is dropped, its pattern kept; −2^-1074. -/
theorem test_signx :
    stepOut gradual (.signx 0xFFF8000000000001#64) = some { quiet with r64 := 0x7FF8000000000001#64 } ∧
    stepOut gradual (.signx 0x8000000000000001#64) = some { quiet with sOut := 1, r64 := 1 } := by
  decide

/-- 2.2: the 24th bit is dropped; a binary64 subnormal with `p = 23`. -/
theorem test_norm :
    stepOut gradual (.norm 0x4170000010000000#64) = some { quiet with eOut := 0x018 } ∧
    stepOut gradual (.norm 0x0000000000800001#64) =
      some { quiet with eOut := 0xBE5, mfOut := 1, flags := 0x1 } := by decide

/-- 2.2: the zero case, and DOMAIN. -/
theorem test_norm_special :
    stepOut gradual (.norm 0x8000000000000000#64) = some { quiet with flags := 0x9 } ∧
    stepOut gradual (.norm 0xFFF0000000000000#64) = some { quiet with err := 2 } := by decide

/-- 2.3. -/
theorem test_biase :
    stepOut gradual (.biase 0x07F#12) = some { quiet with efOut := 0xFE } ∧
    stepOut gradual (.biase 0x080#12) = some { quiet with efOut := 0xFF, flags := 0x2 } ∧
    stepOut gradual (.biase 0xF82#12) = some { quiet with efOut := 0x01 } ∧
    stepOut gradual (.biase 0xF81#12) = some { quiet with efOut := 0x00, flags := 0x4 } := by decide

/-- 2.4. -/
theorem test_pack :
    stepOut gradual (.pack 0#1 0x82#8 0x460000#23) = some { quiet with r32 := 0x41460000 } ∧
    stepOut gradual (.pack 1#1 0xFF#8 0x7FFFFF#23) = some { quiet with r32 := 0xFFFFFFFF } := by decide

/-- 2.5: 0.1 is truncated; the largest magnitude below 2^128 stays finite. -/
theorem test_enc32_normal :
    stepOut gradual (.enc32 0x3FB999999999999A#64) = some
      { quiet with r32 := 0x3DCCCCCC, efOut := 0x7B, mfOut := 0x4CCCCC, eOut := 0xFFC, clsOut := 2 } ∧
    stepOut flush (.enc32 0x47EFFFFFFE000000#64) = some
      { quiet with r32 := 0x7F7FFFFF, efOut := 0xFE, mfOut := 0x7FFFFF, eOut := 0x07F, clsOut := 2 } := by
  decide

/-- 2.5: −1e-40 under either strap. -/
theorem test_enc32_underflow :
    stepOut gradual (.enc32 0xB7A16C262777579C#64) = some
      { quiet with r32 := 0x800116C2, sOut := 1, mfOut := 0x0116C2, eOut := 0xF81, clsOut := 1,
                   flags := 0x4 } ∧
    stepOut flush (.enc32 0xB7A16C262777579C#64) = some
      { quiet with r32 := 0x80000000, sOut := 1, eOut := 0xF81, flags := 0xC } := by decide

/-- 2.6. -/
theorem test_unpack :
    stepOut gradual (.unpack 0x3DCCCCCC#32) = some { quiet with efOut := 0x7B, mfOut := 0x4CCCCC } ∧
    stepOut gradual (.unpack 0x80000000#32) = some { quiet with sOut := 1 } := by decide

/-- 2.7. -/
theorem test_unbias :
    stepOut gradual (.unbias 0#8) = some { quiet with eOut := 0xF81 } ∧
    stepOut gradual (.unbias 255#8) = some { quiet with eOut := 0x080 } := by decide

/-- V9's rows by their fields: a subnormal, and a NaN of either sign. -/
theorem test_denorm :
    stepOut gradual (.denorm 0#1 0x00#8 0x400000#23) =
      some { quiet with clsOut := 1, r64 := 0x3800000000000000 } ∧
    stepOut gradual (.denorm 1#1 0xFF#8 1#23) =
      some { quiet with clsOut := 4, r64 := 0x7FF8000000000000 } := by decide

/-- V9: −2.5, and the NaN row. -/
theorem test_dec32 :
    stepOut gradual (.dec32 0xC0200000#32) = some
      { quiet with sOut := 1, efOut := 0x80, mfOut := 0x200000, eOut := 0x001, clsOut := 2,
                   r64 := 0xC004000000000000 } ∧
    stepOut gradual (.dec32 0x7F800001#32) = some
      { quiet with efOut := 0xFF, mfOut := 1, eOut := 0x080, clsOut := 4,
                   r64 := 0x7FF8000000000000 } := by decide

/-- 42_classifier.md R121 and D25: the raw sign bit for a NaN too. -/
theorem test_class32 :
    stepOut gradual (.class32 0xFFC00000#32) = some { quiet with sOut := 1, clsOut := 4 } ∧
    stepOut gradual (.class32 0x007FFFFF#32) = some { quiet with clsOut := 1 } := by decide

/-- A binary64 normal that ENC32 makes zero is Normal (R123). -/
theorem test_class64 :
    stepOut gradual (.class64 0x3690000000000000#64) = some { quiet with clsOut := 2 } ∧
    stepOut gradual (.class64 0xFFF8000000000000#64) = some { quiet with sOut := 1, clsOut := 4 } := by
  decide

/-- R132, whatever the operand ports hold. -/
theorem test_reserved :
    (match step (present State.reset (Request.ofWord (busy 0xC#4))) with
      | .next t => t.out == { quiet with err := 1 }
      | .fault _ => false
      | .refused _ => false) = true ∧
    stepOut gradual .reservedF = some { quiet with err := 1 } := by decide

/-- withFetchWord presents the word to the very next step (95, P1: SIGNX of 6.5). -/
theorem test_withFetchWord :
    (match step (State.reset.withFetchWord 144 0x0401A0000000000000000000000000000000) with
      | .next t => t.out == { quiet with r64 := 0x401A000000000000 }
      | .fault _ => false
      | .refused _ => false) = true := by decide

/-! ## The text of a request (R62) -/

theorem test_assemble_pack :
    assemble "PACK s_in=1, ef_in=0b1000_0001, m_in=0x500000 ; 6.5".toList =
      .ok (requestOf (.pack 1#1 0x81#8 0x500000#23)) := by decide

theorem test_assemble_biase_signed :
    assemble "BIASE e_in=-133".toList = .ok (requestOf (.biase 0xF7B#12)) := by decide

theorem test_assemble_refuses :
    assemble "ENC32 a32=1".toList = .error .fieldNotRead ∧
    assemble "UNBIAS ef_in=0x100".toList = .error .valueTooWide ∧
    assemble "RESERVED_B".toList = .error .unknownMnemonic := by decide

/-! ## Witnesses -/

/-- A binary64 normal pattern's value, by its fields read off by decide. -/
theorem val64_of_normal (x : Bin64) (e m : ℕ) (k : ℤ) (q : ℚ) (he : (expf64 x).toNat = e)
    (hm : (mant64 x).toNat = m) (hs : sign64 x = 0#1) (h0 : e ≠ 0) (h1 : e ≠ 2047)
    (hk : (e : ℤ) - 1075 = k) (hq : (2 ^ 52 + (m : ℚ)) * (2 : ℚ) ^ k = q) :
    val64 x = .finite q := by
  subst he hm hk hq
  rw [val64, if_neg h0, if_neg h1, hs, applySign, if_neg (by decide)]

/-- 12.375 (V1 of 95_test_vectors.md). -/
theorem val64_twelve : val64 0x4028C00000000000#64 = .finite (99 / 8) :=
  val64_of_normal _ 1026 (2 ^ 51 + 2 ^ 47 + 2 ^ 46) (-49) _ (by decide) (by decide) (by decide)
    (by decide) (by decide) (by decide) (by norm_num)

/-- The least positive binary64 number. -/
theorem val64_least : val64 1#64 = .finite ((2 : ℚ) ^ (-1074 : ℤ)) := by
  have h : (expf64 1#64).toNat = 0 ∧ (mant64 1#64).toNat = 1 ∧ sign64 1#64 = 0#1 := by decide
  rw [val64, if_pos h.1, if_neg (by omega), h.2.1, h.2.2, applySign, if_neg (by decide), Nat.cast_one,
    one_mul]

theorem val64_two_pow_1023 : val64 0x7FE0000000000000#64 = .finite ((2 : ℚ) ^ (1023 : ℤ)) :=
  val64_of_normal _ 2046 0 971 _ (by decide) (by decide) (by decide) (by decide) (by decide)
    (by decide) (by simpa using (zpow_add₀ (two_ne_zero (α := ℚ)) 52 971).symm)
theorem val64_two_pow_128 : val64 0x47F0000000000000#64 = .finite ((2 : ℚ) ^ (128 : ℤ)) :=
  val64_of_normal _ 1151 0 76 _ (by decide) (by decide) (by decide) (by decide) (by decide)
    (by decide) (by norm_num)
theorem val64_below_two_pow_128 :
    val64 0x47EFFFFFFE000000#64 = .finite ((2 : ℚ) ^ (128 : ℤ) - (2 : ℚ) ^ (100 : ℤ)) :=
  val64_of_normal _ 1150 (2 ^ 52 - 2 ^ 25) 75 _ (by decide) (by decide) (by decide) (by decide) (by decide)
    (by decide) (by norm_num)
theorem val64_two_pow_127 : val64 0x47E0000000000000#64 = .finite ((2 : ℚ) ^ (127 : ℤ)) :=
  val64_of_normal _ 1150 0 75 _ (by decide) (by decide) (by decide) (by decide) (by decide)
    (by decide) (by norm_num)
theorem val64_two_pow_neg_126 : val64 0x3810000000000000#64 = .finite ((2 : ℚ) ^ (-126 : ℤ)) :=
  val64_of_normal _ 897 0 (-178) _ (by decide) (by decide) (by decide) (by decide) (by decide)
    (by decide) (by norm_num)
theorem val64_two_pow_neg_127 : val64 0x3800000000000000#64 = .finite ((2 : ℚ) ^ (-127 : ℤ)) :=
  val64_of_normal _ 896 0 (-179) _ (by decide) (by decide) (by decide) (by decide) (by decide)
    (by decide) (by norm_num)
theorem val64_two_pow_neg_149 : val64 0x36A0000000000000#64 = .finite ((2 : ℚ) ^ (-149 : ℤ)) :=
  val64_of_normal _ 874 0 (-201) _ (by decide) (by decide) (by decide) (by decide) (by decide)
    (by decide) (by norm_num)
theorem val64_two_pow_neg_150 : val64 0x3690000000000000#64 = .finite ((2 : ℚ) ^ (-150 : ℤ)) :=
  val64_of_normal _ 873 0 (-202) _ (by decide) (by decide) (by decide) (by decide) (by decide)
    (by decide) (by norm_num)

/-- Two powers of two around another: what `flog2` hypotheses need of a power of two. -/
theorem zpow_bounds (e : ℤ) : (2 : ℚ) ^ e ≤ |(2 : ℚ) ^ e| ∧ |(2 : ℚ) ^ e| < (2 : ℚ) ^ (e + 1) := by
  rw [abs_of_pos (by positivity)]
  exact ⟨le_rfl, zpow_lt_zpow_right₀ (by norm_num) (by omega)⟩

theorem witness_StepRunsThePresentedOperation :
    decode 0x20000000000000000000000007BD80000000#144 = .biase 0xF7B#12 := by decide

/-- Two BIASE requests that differ on every port BIASE does not read. -/
theorem witness_UnreadPortsDoNotChangeTheOperation :
    (∀ p : InPort, (formatOf 0x2#4).reads p = true →
      operandValue (Request.ofWord (busy 0x2#4)) p = operandValue (requestOf (.biase 0x803#12)) p) ∧
    Request.ofWord (busy 0x2#4) ≠ requestOf (.biase 0x803#12) := by
  constructor
  · intro p; cases p <;> decide
  · decide

theorem witness_OpSelectsTheOperation :
    (decodeRequest { Request.zero with op := 0xA#4 }).opIsDefined = true ∧
    (decodeRequest { Request.zero with op := 0xB#4 }).opIsDefined = false := by decide

/-- A request for each op, with all its operand ports in use. -/
theorem witness_op_clauses : ∀ op : BitVec 4, (Request.ofWord (busy op)).op = op := by decide

theorem witness_SignxDrivesSignAndClearedPattern :
    class64 0xFFF0000000000001#64 = .nan ∧ class64 0xFFF0000000000000#64 ≠ .nan := by decide

theorem witness_SignxMagnitudeIsTheAbsoluteValue :
    val64 0x4028C00000000000#64 = .finite (99 / 8) ∧ val64 0x8000000000000000#64 = .zero 1#1 ∧
    val64 0xFFF0000000000000#64 = .infinity 1#1 ∧ val64 0xFFF8000000000001#64 = .nan := by
  refine ⟨val64_twelve, ?_, ?_, ?_⟩
  · have h : (expf64 0x8000000000000000#64).toNat = 0 ∧ (mant64 0x8000000000000000#64).toNat = 0 := by
      decide
    rw [val64, if_pos h.1, if_pos h.2]; rfl
  · have h : (expf64 0xFFF0000000000000#64).toNat = 2047 ∧
        (mant64 0xFFF0000000000000#64).toNat = 0 := by decide
    rw [val64, if_neg (by omega), if_pos h.1, if_pos h.2]; rfl
  · have h : (expf64 0xFFF8000000000001#64).toNat = 2047 ∧
        (mant64 0xFFF8000000000001#64).toNat ≠ 0 := by decide
    rw [val64, if_neg (by omega), if_pos h.1, if_neg h.2]

/-- The specials of either sign; 12.375 with exponent 3, and the two ends of the exponent range. -/
theorem witness_NormIsNorm23OfTheMagnitude :
    (class64 0xFFF0000000000000#64 = .infinity ∧ class64 0x7FF0000000000001#64 = .nan ∧
      class64 0x8000000000000000#64 = .zero) ∧
    (val64 0x4028C00000000000#64 = .finite (99 / 8) ∧ (2 : ℚ) ^ (3 : ℤ) ≤ |(99 / 8 : ℚ)| ∧
      |(99 / 8 : ℚ)| < (2 : ℚ) ^ ((3 : ℤ) + 1)) ∧
    (val64 1#64 = .finite ((2 : ℚ) ^ (-1074 : ℤ)) ∧ (2 : ℚ) ^ (-1074 : ℤ) ≤ |(2 : ℚ) ^ (-1074 : ℤ)| ∧
      |(2 : ℚ) ^ (-1074 : ℤ)| < (2 : ℚ) ^ ((-1074 : ℤ) + 1)) ∧
    (val64 0x7FE0000000000000#64 = .finite ((2 : ℚ) ^ (1023 : ℤ)) ∧
      (2 : ℚ) ^ (1023 : ℤ) ≤ |(2 : ℚ) ^ (1023 : ℤ)| ∧
      |(2 : ℚ) ^ (1023 : ℤ)| < (2 : ℚ) ^ ((1023 : ℤ) + 1)) :=
  ⟨by decide, ⟨val64_twelve, by norm_num [abs_of_pos], by norm_num [abs_of_pos]⟩, ⟨val64_least, zpow_bounds _⟩,
    ⟨val64_two_pow_1023, zpow_bounds _⟩⟩

theorem witness_NormOfNonFiniteRaisesDomain :
    class64 0x7FF0000000000000#64 = .infinity ∧ class64 0xFFF8000000000001#64 = .nan ∧
    (stepOut gradual (.enc32 0xFFF8000000000001#64)).isSome = true := by decide

/-- Exponent fields 1 and 2046; subnormals with `p` = 0, 22, 23 and 51. -/
theorem witness_NormHasTheBitLevelForm :
    (expf64 0x0010000000000000#64).toNat = 1 ∧ (expf64 0x7FEFFFFFFFFFFFFF#64).toNat = 2046 ∧
    ((expf64 1#64).toNat = 0 ∧ 2 ^ 0 ≤ (mant64 1#64).toNat ∧ (mant64 1#64).toNat < 2 ^ (0 + 1)) ∧
    ((expf64 0x7FFFFF#64).toNat = 0 ∧ 2 ^ 22 ≤ (mant64 0x7FFFFF#64).toNat ∧
      (mant64 0x7FFFFF#64).toNat < 2 ^ (22 + 1)) ∧
    ((expf64 0x800001#64).toNat = 0 ∧ 2 ^ 23 ≤ (mant64 0x800001#64).toNat ∧
      (mant64 0x800001#64).toNat < 2 ^ (23 + 1)) ∧
    ((expf64 0x000FFFFFFFFFFFFF#64).toNat = 0 ∧ 2 ^ 51 ≤ (mant64 0x000FFFFFFFFFFFFF#64).toNat ∧
      (mant64 0x000FFFFFFFFFFFFF#64).toNat < 2 ^ (51 + 1)) := by decide

/-- The sums 1, 254, 255 and 0, one at each edge of each clause, and the port's ends. -/
theorem witness_BiaseAddsTheBiasAndSaturates :
    (0xF82#12).toInt + 127 = 1 ∧ (0x07F#12).toInt + 127 = 254 ∧ (0x080#12).toInt + 127 = 255 ∧
    (0xF81#12).toInt + 127 = 0 ∧ 255 ≤ (0x7FF#12).toInt + 127 ∧ (0x800#12).toInt + 127 ≤ 0 := by decide

theorem witness_Enc32OfNanIsCanonical :
    (expf64 0xFFF0000000000001#64).toNat = 2047 ∧ (mant64 0xFFF0000000000001#64).toNat ≠ 0 := by decide

/-- Specials; exponents −126 and 127 (in range), 128 (overflow), −127, −149 and −150 (underflow), where
2^-150 truncates to zero and the other two do not. -/
theorem witness_Enc32IsTheWholeEncoder :
    (class64 0x7FF8000000000000#64 = .nan ∧ class64 0xFFF0000000000000#64 = .infinity ∧
      class64 0x8000000000000000#64 = .zero) ∧
    val64 0x3810000000000000#64 = .finite ((2 : ℚ) ^ (-126 : ℤ)) ∧
    val64 0x47E0000000000000#64 = .finite ((2 : ℚ) ^ (127 : ℤ)) ∧
    val64 0x47F0000000000000#64 = .finite ((2 : ℚ) ^ (128 : ℤ)) ∧
    (val64 0x3800000000000000#64 = .finite ((2 : ℚ) ^ (-127 : ℤ)) ∧
      ⌊|(2 : ℚ) ^ (-127 : ℤ)| * (2 : ℚ) ^ (149 : ℤ)⌋ ≠ 0) ∧
    (val64 0x36A0000000000000#64 = .finite ((2 : ℚ) ^ (-149 : ℤ)) ∧
      ⌊|(2 : ℚ) ^ (-149 : ℤ)| * (2 : ℚ) ^ (149 : ℤ)⌋ ≠ 0) ∧
    (val64 0x3690000000000000#64 = .finite ((2 : ℚ) ^ (-150 : ℤ)) ∧
      ⌊|(2 : ℚ) ^ (-150 : ℤ)| * (2 : ℚ) ^ (149 : ℤ)⌋ = 0) ∧
    (∀ e : ℤ, (2 : ℚ) ^ e ≤ |(2 : ℚ) ^ e| ∧ |(2 : ℚ) ^ e| < (2 : ℚ) ^ (e + 1)) ∧
    (holding flush .reservedB).config.pSubn = .flush ∧ State.reset.config.pSubn = .gradual := by
  refine ⟨by decide, val64_two_pow_neg_126, val64_two_pow_127, val64_two_pow_128,
    ⟨val64_two_pow_neg_127, ?_⟩, ⟨val64_two_pow_neg_149, ?_⟩, ⟨val64_two_pow_neg_150, ?_⟩, zpow_bounds,
    rfl, rfl⟩
  · norm_num [abs_of_pos]
  · norm_num [abs_of_pos]
  · norm_num [abs_of_pos, Int.floor_eq_iff]

/-- 2^128, the largest magnitude below it, and the two sides of the subnormal range. -/
theorem witness_Enc32OutOfRangeByMagnitude :
    val64 0x47F0000000000000#64 = .finite ((2 : ℚ) ^ (128 : ℤ)) ∧
    (val64 0x47EFFFFFFE000000#64 = .finite ((2 : ℚ) ^ (128 : ℤ) - (2 : ℚ) ^ (100 : ℤ)) ∧
      |(2 : ℚ) ^ (128 : ℤ) - (2 : ℚ) ^ (100 : ℤ)| < (2 : ℚ) ^ (128 : ℤ) ∧
      (2 ^ 24 - 1) * (2 : ℚ) ^ (104 : ℤ) ≤ |(2 : ℚ) ^ (128 : ℤ) - (2 : ℚ) ^ (100 : ℤ)|) ∧
    (val64 0x36A0000000000000#64 = .finite ((2 : ℚ) ^ (-149 : ℤ)) ∧
      |(2 : ℚ) ^ (-149 : ℤ)| < (2 : ℚ) ^ (-126 : ℤ)) ∧
    (holding flush .reservedB).config.pSubn = .flush ∧ State.reset.config.pSubn = .gradual := by
  refine ⟨val64_two_pow_128, ⟨val64_below_two_pow_128, ?_, ?_⟩, ⟨val64_two_pow_neg_149, ?_⟩, rfl, rfl⟩
  · norm_num [abs_of_pos]
  · norm_num [abs_of_pos]
  · norm_num [abs_of_pos]

/-- The two ends of the normal range. -/
theorem witness_Enc32TruncatesTheMagnitude :
    val64 0x3810000000000000#64 = .finite ((2 : ℚ) ^ (-126 : ℤ)) ∧
    (val64 0x47EFFFFFFE000000#64 = .finite ((2 : ℚ) ^ (128 : ℤ) - (2 : ℚ) ^ (100 : ℤ)) ∧
      (2 : ℚ) ^ (127 : ℤ) ≤ |(2 : ℚ) ^ (128 : ℤ) - (2 : ℚ) ^ (100 : ℤ)| ∧
      |(2 : ℚ) ^ (128 : ℤ) - (2 : ℚ) ^ (100 : ℤ)| < (2 : ℚ) ^ ((127 : ℤ) + 1)) ∧
    (2 : ℚ) ^ (-126 : ℤ) ≤ |(2 : ℚ) ^ (-126 : ℤ)| ∧
    |(2 : ℚ) ^ (-126 : ℤ)| < (2 : ℚ) ^ ((-126 : ℤ) + 1) := by
  refine ⟨val64_two_pow_neg_126, ⟨val64_below_two_pow_128, ?_, ?_⟩, zpow_bounds _⟩
  · norm_num [abs_of_pos]
  · norm_num [abs_of_pos]

/-- An exact and an inexact input, and a NaN. -/
theorem witness_Enc32ExactMeansTheSameValue :
    (class64 0x4028C00000000000#64 ≠ .nan ∧
      exactFlag (answer gradual (.enc32 0x4028C00000000000#64)).flags = true) ∧
    (class64 0x3FB999999999999A#64 ≠ .nan ∧
      exactFlag (answer gradual (.enc32 0x3FB999999999999A#64)).flags = false) ∧
    class64 0x7FF0000000000001#64 = .nan := by decide

/-- Each flag once raised and once not. -/
theorem witness_Enc32FlagsReportZeroAndSaturation :
    (answer gradual (.enc32 0x3690000000000000#64)).flags = 0xC#4 ∧
    (answer gradual (.enc32 0x47F0000000000000#64)).flags = 0x2#4 ∧
    (answer gradual (.enc32 0x3810000000000000#64)).flags = 0x1#4 := by decide

/-- 2^-149 (the strap matters), and its neighbours 2^-150 and 2^-126 (it does not). -/
theorem witness_StrapMattersOnlyToSubnormalResults :
    answer gradual (.enc32 0x36A0000000000000#64) ≠ answer flush (.enc32 0x36A0000000000000#64) ∧
    answer gradual (.enc32 0x3690000000000000#64) = answer flush (.enc32 0x3690000000000000#64) ∧
    answer gradual (.enc32 0x3810000000000000#64) = answer flush (.enc32 0x3810000000000000#64) := by
  decide

/-- A normal input in range, one that overflows, and one that underflows under FLUSH. -/
theorem witness_ChainRecreatesEnc32 :
    (class64 0x401A000000000000#64 = .normal ∧
      unfFlag (chainBiase gradual 0x401A000000000000#64).flags = false) ∧
    (class64 0x47F0000000000000#64 = .normal ∧
      unfFlag (chainBiase gradual 0x47F0000000000000#64).flags = false ∧
      ovfFlag (chainBiase gradual 0x47F0000000000000#64).flags = true) ∧
    (class64 0x8000000000000001#64 = .subnormal ∧ flush.pSubn = .flush ∧
      unfFlag (chainBiase flush 0x8000000000000001#64).flags = true) := by decide

/-- The ends of BIASE's in-range interval. -/
theorem witness_SubOperationsUndoEachOther :
    (0xF82#12).toInt = -126 ∧ (0x07F#12).toInt = 127 := by decide

/-- Each category's boundary triples: exponent fields 0, 1, 254 and 255; `p` = 0 and 22. -/
theorem witness_DenormHasTheBitLevelForm :
    ((0x00#8).toNat = 0 ∧ (0#23).toNat = 0) ∧
    (2 ^ 0 ≤ (1#23).toNat ∧ (1#23).toNat < 2 ^ (0 + 1)) ∧
    (2 ^ 22 ≤ (0x7FFFFF#23).toNat ∧ (0x7FFFFF#23).toNat < 2 ^ (22 + 1)) ∧
    ((0x01#8).toNat = 1 ∧ (0xFE#8).toNat = 254) ∧
    ((0xFF#8).toNat = 255 ∧ (0x400000#23).toNat ≠ 0) := by decide

theorem witness_DenormGivesTheExactValue : class32 (1#1 ++ 0xFF#8 ++ 1#23) = .nan := by decide

theorem witness_Dec32GivesTheExactValue : class32 0xFF800001#32 = .nan := by decide

/-- A subnormal under GRADUAL, a normal under FLUSH, a NaN. -/
theorem witness_EncodeOfDecodeIsThePattern :
    (class32 0x80000001#32 ≠ .nan ∧ gradual.pSubn = .gradual) ∧
    (class32 0x00800000#32 ≠ .nan ∧ flush.pSubn ≠ .gradual ∧ class32 0x00800000#32 ≠ .subnormal) ∧
    class32 0xFF800001#32 = .nan := by decide

/-- Exact inputs: a subnormal result, and an infinity. -/
theorem witness_DecodeOfExactEncodeIsTheInput :
    (class64 0x36A0000000000000#64 ≠ .nan ∧
      exactFlag (answer gradual (.enc32 0x36A0000000000000#64)).flags = true) ∧
    (class64 0xFFF0000000000000#64 ≠ .nan ∧
      exactFlag (answer flush (.enc32 0xFFF0000000000000#64)).flags = true) := by decide

/-- An input that is not exact. -/
theorem witness_Enc32IsIdempotentThroughDec32 :
    class64 0x3FB999999999999A#64 ≠ .nan ∧
      exactFlag (answer gradual (.enc32 0x3FB999999999999A#64)).flags = false := by decide

theorem witness_Dec32OfEnc32KeepsSignClassAndExponent :
    class64 0xBFB999999999999A#64 ≠ .nan ∧ class64 0x8000000000000000#64 = .zero ∧
    class64 0x7FF0000000000000#64 = .infinity ∧ class64 0xFFF8000000000000#64 = .nan := by decide

/-- The first and the last reserved op. -/
theorem witness_ReservedOpRaisesIllegalOp :
    0xB ≤ (holding gradual .reservedB).inp.op.toNat ∧
    0xB ≤ (holding gradual .reservedF).inp.op.toNat := by decide

/-- One instruction for each side of each equivalence. -/
theorem witness_ErrorsAreThoseOfIllFormedRequests :
    (Instr.norm 0x7FEFFFFFFFFFFFFF#64).wellFormed = true ∧
    (Instr.norm 0x7FF0000000000000#64).operandInDomain = false ∧
    Instr.reservedF.opIsDefined = false := by decide

/-- A safe run, and a run with one faulting request. -/
theorem witness_SafeRunsAreRunsOfWellFormedRequests :
    safeRun State.reset [requestOf (.dec32 0x7F800001#32)] = true ∧
    safeRun State.reset [requestOf .reservedC, requestOf (.unbias 1#8)] = false := by decide

/-- A reserved op. -/
theorem witness_EveryRequestCompletes : 0xB ≤ (holding flush .reservedC).inp.op.toNat := by decide

/-- A port CLASS32 does not drive, and an error's response. -/
theorem witness_UndrivenOutputsAreZero :
    drives (holding gradual (.class32 1#32)).inp.op .eOut = false ∧
    stepOut gradual .reservedB = some { quiet with err := 1 } := by decide

/-- Two states that agree on BIASE's port and differ on the others and on the outputs. -/
theorem witness_EqualRequestsGetEqualResponses :
    State.config { config := gradual, inp := Request.ofWord (busy 0x2#4), out := quiet } =
      (holding gradual (.biase 0x803#12)).config ∧
    (Request.ofWord (busy 0x2#4)).op = (requestOf (.biase 0x803#12)).op ∧
    (∀ p : InPort, (formatOf 0x2#4).reads p = true →
      operandValue (Request.ofWord (busy 0x2#4)) p = operandValue (requestOf (.biase 0x803#12)) p) :=
  ⟨by decide, by decide, witness_UnreadPortsDoNotChangeTheOperation.1⟩

/-- A state with an error on its outputs meets the invariant, and so does reset. -/
theorem witness_StepKeepsOutputsSettledAndLegal :
    (State.settled { holding gradual .reservedB with out := { quiet with err := 1 } } ∧
      Response.legal { quiet with err := 1 }) ∧
    (State.reset.settled ∧ State.reset.out.legal) := by decide

/-- Both ends of the reported range, NORM's and the other operations'. -/
theorem witness_ReportedExponentsStayInRange :
    (answer gradual (.norm 1#64)).eOut.toInt = -1074 ∧
    (answer gradual (.norm 0x7FEFFFFFFFFFFFFF#64)).eOut.toInt = 1023 ∧
    (answer gradual (.unbias 0#8)).eOut.toInt = -127 ∧
    (answer gradual (.unbias 255#8)).eOut.toInt = 128 := by decide

/-- A line with a field it writes and two it omits; the omitted ones and the unread ports are 0. -/
theorem witness_AssembledLineIsOneOperation :
    assemble "DENORM m_in=1 ; the least subnormal".toList = .ok (requestOf (.denorm 0#1 0#8 1#23)) ∧
    (lineItems "DENORM m_in=1 ; the least subnormal".toList).map (fun it => portOfName (itemName it)) =
      [some .mIn] ∧
    operandValue (requestOf (.denorm 0#1 0#8 1#23)) .efIn = 0 := by decide

/-- A line with its fields in another order, and one line for each reason not to assemble. -/
theorem witness_LineAssemblesExactlyWhenItsFieldsAreReadable :
    assemble "PACK m_in=1, s_in=1".toList = .ok (requestOf (.pack 1#1 0#8 1#23)) ∧
    assemble "NOP".toList = .error .unknownMnemonic ∧
    assemble "DEC32 a32=0x".toList = .error .badValue ∧
    assemble "UNBIAS s_in=1".toList = .error .fieldNotRead ∧
    assemble "UNBIAS ef_in=1, ef_in=1".toList = .error .repeatedField := by decide

/-- R62's own capitals and the zero-padded words of 95_test_vectors.md; the ends of a port's range and the
first number past it; both ends of the signed range on `e_in`; letters in small and mixed case, and a sign
that is not read (log 6). -/
theorem witness_ValueSpellingsStandForTheirNumbers :
    (readValue .a64 "0x4028C00000000000".toList = .ok 0x4028C00000000000 ∧
      readValue .a64 "0x0000000000000001".toList = .ok 1) ∧
    ("4028c00000000000".toList = List.replicate 0 '0' ++ Nat.toDigits 16 0x4028C00000000000 ∧
      "0000000000000001".toList = (List.replicate 15 '0' ++ Nat.toDigits 16 1).map Char.toUpper) ∧
    (readValue .efIn "0xFF".toList = .ok 255 ∧ readValue .efIn "0x100".toList = .error .valueTooWide) ∧
    (readValue .efIn "0xff".toList = .ok 255 ∧ readValue .efIn "0xfF".toList = .ok 255) ∧
    (readValue .sIn "0b0".toList = .ok 0 ∧ readValue .sIn "0b10".toList = .error .valueTooWide) ∧
    (readValue .mIn "8388607".toList = .ok 0x7FFFFF ∧
      readValue .mIn "8388608".toList = .error .valueTooWide) ∧
    readValue .efIn "0b0_1000_0001".toList = .ok 0x81 ∧
    (readValue .eIn "2047".toList = .ok 0x7FF ∧ readValue .eIn "-2048".toList = .ok 0x800) ∧
    readValue .eIn "+3".toList = .error .badValue := by decide

end Sys2Proof.Tests
end

/-! ## O22: where the strap P_SUBN can be seen (R6, R77) -/

namespace Sys2Proof.Machine

/-! ### The exact arithmetic against powers of two -/

/-- `flog2` falls below an integer exactly when the magnitude falls below its power (R13). -/
theorem flog2_lt_iff (q : Mag) (h : q.sig ≠ 0) (e : ℤ) : q.flog2 < e ↔ q.toRat < (2 : ℚ) ^ e := by
  obtain ⟨hlo, hhi⟩ := flog2_spec q h
  constructor
  · intro he
    exact hhi.trans_le (zpow_le_zpow_right₀ one_le_two (by omega))
  · intro hq
    exact (zpow_lt_zpow_iff_right₀ one_lt_two).mp (hlo.trans_lt hq)

/-- The subnormal mantissa of R77 is 0 exactly for magnitudes below 2^(-149). -/
theorem floor_scale149_eq_zero_iff (q : Mag) :
    (q.scale 149).floor = 0 ↔ q.toRat < (2 : ℚ) ^ (-149 : ℤ) := by
  have hnonneg : 0 ≤ q.toRat * (2 : ℚ) ^ (149 : ℤ) := mul_nonneg (toRat_nonneg q) (by positivity)
  rw [← Int.natCast_eq_zero, floor_scale149, Int.floor_eq_zero_iff, Set.mem_Ico, zpow_neg, ← one_div,
    lt_div_iff₀ (by positivity)]
  exact and_iff_right hnonneg

/-! ### The encoder under the two straps -/

/-- The straps agree on an underflow exactly when GRADUAL finds no subnormal mantissa: the `zero` flag
tells a flushed result from a subnormal one (R77). -/
theorem encodeUnderflow_gradual_eq_flush_iff (g : SignBit) (q : Mag) :
    encodeUnderflow .gradual g q = encodeUnderflow .flush g q ↔ (q.scale 149).floor = 0 := by
  by_cases h : (q.scale 149).floor = 0
  · simp [encodeUnderflow, h]
  · refine iff_of_false (fun heq => ?_) h
    have hzero := congrArg (fun r => zeroFlag r.flags) heq
    simp [encodeUnderflow, h] at hzero

@[simp] theorem norm23_e (q : Mag) : (norm23 q).e = q.flog2 := rfl

theorem encodeFinite_of_underflow (p : SubnormalPolicy) (g : SignBit) {q : Mag} (h : q.flog2 < -126) :
    encodeFinite p g q = encodeUnderflow p g q := by
  simp only [encodeFinite, norm23_e, biasExp_of_underflow (show q.flog2 + 127 ≤ 0 by omega)]

/-- From 2^(-126) on no branch of the encoder reads the strap (R76, R77). -/
theorem encodeFinite_strap_irrelevant (p p' : SubnormalPolicy) (g : SignBit) {q : Mag}
    (h : -126 ≤ q.flog2) : encodeFinite p g q = encodeFinite p' g q := by
  by_cases ho : 255 ≤ q.flog2 + 127
  · simp only [encodeFinite, norm23_e, biasExp_of_overflow ho]
  · have hb := biasExp_of_inRange (e := q.flog2) (by omega) (by omega)
    simp only [encodeFinite, norm23_e, hb]

theorem encodeFinite_gradual_ne_flush_iff (g : SignBit) (q : Mag) (h : q.sig ≠ 0) :
    encodeFinite .gradual g q ≠ encodeFinite .flush g q ↔
      (2 : ℚ) ^ (-149 : ℤ) ≤ q.toRat ∧ q.toRat < (2 : ℚ) ^ (-126 : ℤ) := by
  rw [← flog2_lt_iff q h]
  by_cases hu : q.flog2 < -126
  · rw [encodeFinite_of_underflow _ g hu, encodeFinite_of_underflow _ g hu, ne_eq,
      encodeUnderflow_gradual_eq_flush_iff, floor_scale149_eq_zero_iff, not_lt]
    exact (and_iff_left hu).symm
  · exact iff_of_false (not_not.mpr (encodeFinite_strap_irrelevant _ _ g (not_lt.mp hu)))
      (fun hq => hu hq.2)

theorem encode32_of_finite (p : SubnormalPolicy) {x : Bin64}
    (h : class64 x = .normal ∨ class64 x = .subnormal) :
    encode32 p x = encodeFinite p (sign64 x) (mag64 x) := by
  rcases h with h | h <;> simp only [encode32, h]

/-- A zero, an infinity or a NaN is encoded alike under both straps (R80). -/
theorem encode32_strap_irrelevant_of_special (p p' : SubnormalPolicy) {x : Bin64}
    (h : ¬ (class64 x = .normal ∨ class64 x = .subnormal)) : encode32 p x = encode32 p' x := by
  cases hc : class64 x with
  | zero | infinity | nan => simp only [encode32, hc]
  | normal => exact absurd (.inl hc) h
  | subnormal => exact absurd (.inr hc) h

/-- The encoder's result shows the strap exactly for finite values in [2^(-149), 2^(-126)). -/
theorem encode32_gradual_ne_flush_iff (x : Bin64) :
    encode32 .gradual x ≠ encode32 .flush x ↔
      ∃ q, val64 x = .finite q ∧ (2 : ℚ) ^ (-149 : ℤ) ≤ |q| ∧ |q| < (2 : ℚ) ^ (-126 : ℤ) := by
  by_cases h : class64 x = .normal ∨ class64 x = .subnormal
  · rw [encode32_of_finite _ h, encode32_of_finite _ h,
      encodeFinite_gradual_ne_flush_iff _ _ (mag64_sig_ne_zero_of_finite h)]
    constructor
    · intro hq
      exact ⟨_, val64_eq_finite x h, by rwa [abs_eq_mag64 (val64_eq_finite x h)]⟩
    · rintro ⟨q, hv, hq⟩
      rwa [abs_eq_mag64 hv] at hq
  · exact iff_of_false (not_not.mpr (encode32_strap_irrelevant_of_special _ _ h))
      (fun ⟨_, hv, _⟩ => h (class64_of_finite hv))

/-! ### From what exec drives to the response -/

/-- ENC32 drives the encoder's word and flags, and ports derived from the word (R80). -/
theorem exec_enc32 (x : Bin64) (s : State) :
    exec (.enc32 x) s =
      drive (enc32Drives (encode32 s.config.pSubn x).word (encode32 s.config.pSubn x).flags) s := rfl

theorem enc32Drives_inj {a b : Encoded} :
    enc32Drives a.word a.flags = enc32Drives b.word b.flags ↔ a = b := by
  constructor
  · intro h
    obtain ⟨aw, af⟩ := a
    obtain ⟨bw, bf⟩ := b
    obtain rfl : aw = bw := congrArg Response.r32 h
    obtain rfl : af = bf := congrArg Response.flags h
    rfl
  · rintro rfl
    rfl

/-- Every operation but ENC32 drives one response, whatever the state it is evaluated in. -/
theorem exec_drives_fixed_response {i : Instr} (h : ∀ x, i ≠ .enc32 x) :
    ∃ q, ∀ s, exec i s = drive q s := by
  cases i with
  | enc32 x => exact absurd rfl (h x)
  | norm x =>
    simp only [exec, execNorm]
    cases class64 x <;> exact ⟨_, fun _ => rfl⟩
  | biase e =>
    simp only [exec, execBiase]
    cases biasExp (sval12 e) <;> exact ⟨_, fun _ => rfl⟩
  | _ => exact ⟨_, fun _ => rfl⟩

/-- The response is what exec drives from the ports as presented (R20). -/
theorem response_of_exec_drive {c : Config} {r : Request} {q : Response}
    (h : exec (decodeRequest r) { config := c, inp := r, out := quiet } =
      drive q { config := c, inp := r, out := quiet }) : response c r = q := by
  simp only [response, step_eq_exec, h, drive]

theorem decodeRequest_eq_enc32_iff (r : Request) (x : Bin64) :
    decodeRequest r = .enc32 x ↔ r.op = 0x4#4 ∧ r.a64 = x := by
  unfold decodeRequest
  split <;> simp_all

theorem response_of_enc32 (c : Config) {r : Request} (h : r.op = 0x4#4) :
    response c r = enc32Drives (encode32 c.pSubn r.a64).word (encode32 c.pSubn r.a64).flags := by
  apply response_of_exec_drive
  rw [(decodeRequest_eq_enc32_iff r r.a64).mpr ⟨h, rfl⟩]
  exact exec_enc32 _ _

theorem response_strap_irrelevant (c d : Config) {r : Request} (h : r.op ≠ 0x4#4) :
    response c r = response d r := by
  obtain ⟨q, hq⟩ := exec_drives_fixed_response
    (i := decodeRequest r) (fun x hx => h ((decodeRequest_eq_enc32_iff r x).mp hx).1)
  rw [response_of_exec_drive (hq _), response_of_exec_drive (hq _)]

/-- Settles O22: operations other than ENC32 drive a response that does not read the strap; ENC32's shows
the whole result of the encoder, whose only reader of the strap is the underflow branch, and there the two
straps agree exactly below 2^(-149). -/
theorem strapMattersOnlyToSubnormalResults : Obligations.StrapMattersOnlyToSubnormalResults := by
  intro r
  by_cases hop : r.op = 0x4#4
  · rw [response_of_enc32 _ hop, response_of_enc32 _ hop, Ne, enc32Drives_inj]
    exact (encode32_gradual_ne_flush_iff r.a64).trans (and_iff_right hop).symm
  · exact iff_of_false (not_not.mpr (response_strap_irrelevant _ _ hop)) (fun h => hop h.1)

end Sys2Proof.Machine

/-! ## What the block answers, instruction by instruction (R20, R55) -/

namespace Sys2Proof.Machine

/-! ### Requests, words and operations -/

@[simp] theorem decodeRequest_requestOf (i : Instr) : decodeRequest (requestOf i) = i := by
  cases i <;> rfl

/-- The operation of a request has that request's `op` (R55, R56). -/
@[simp] theorem requestOf_decodeRequest_op (r : Request) : (requestOf (decodeRequest r)).op = r.op := by
  unfold decodeRequest
  split
  case h_16 =>
    simp only [requestOf]
    generalize r.op = op at *
    decide +revert
  all_goals exact Eq.symm ‹_›

/-- The word of a request by numbers: the ports side by side (R51). -/
theorem toNat_toWord (r : Request) :
    r.toWord.toNat = r.op.toNat * 2 ^ 140 + r.a64.toNat * 2 ^ 76 + r.a32.toNat * 2 ^ 44 +
      r.sIn.toNat * 2 ^ 43 + r.eIn.toNat * 2 ^ 31 + r.efIn.toNat * 2 ^ 23 + r.mIn.toNat := by
  unfold Request.toWord
  repeat rw [BitVec.toNat_append, ← Nat.shiftLeft_add_eq_or_of_lt (BitVec.isLt _)]
  simp only [Nat.shiftLeft_eq]
  omega

/-- Reading back the word of a request gives the request (R51). -/
@[simp] theorem ofWord_toWord (r : Request) : Request.ofWord r.toWord = r := by
  have hword := toNat_toWord r
  obtain ⟨op, a64, a32, sIn, eIn, efIn, mIn⟩ := r
  simp only [Request.ofWord, Request.mk.injEq, BitVec.toNat_eq, BitVec.extractLsb'_toNat,
    Nat.shiftRight_eq_div_pow, hword]
  omega

@[simp] theorem decode_encode (i : Instr) : decode (encode i) = i := by
  rw [decode, encode, ofWord_toWord, decodeRequest_requestOf]

/-- An operation reads no port but those of its op's format (R21, R50). -/
theorem decodeRequest_congr {r₁ r₂ : Request} (hop : r₁.op = r₂.op)
    (h : ∀ p : InPort, (formatOf r₁.op).reads p = true → operandValue r₁ p = operandValue r₂ p) :
    decodeRequest r₁ = decodeRequest r₂ := by
  obtain ⟨op, a64, a32, sIn, eIn, efIn, mIn⟩ := r₁
  obtain ⟨_, a64', a32', sIn', eIn', efIn', mIn'⟩ := r₂
  obtain rfl := hop
  have ha64 (hp : (formatOf op).reads .a64 = true) : a64 = a64' := BitVec.eq_of_toNat_eq (h _ hp)
  have ha32 (hp : (formatOf op).reads .a32 = true) : a32 = a32' := BitVec.eq_of_toNat_eq (h _ hp)
  have hsIn (hp : (formatOf op).reads .sIn = true) : sIn = sIn' := BitVec.eq_of_toNat_eq (h _ hp)
  have heIn (hp : (formatOf op).reads .eIn = true) : eIn = eIn' := BitVec.eq_of_toNat_eq (h _ hp)
  have hefIn (hp : (formatOf op).reads .efIn = true) : efIn = efIn' := BitVec.eq_of_toNat_eq (h _ hp)
  have hmIn (hp : (formatOf op).reads .mIn = true) : mIn = mIn' := BitVec.eq_of_toNat_eq (h _ hp)
  unfold decodeRequest
  dsimp only
  split
  · exact congrArg Instr.signx (ha64 rfl)
  · exact congrArg Instr.norm (ha64 rfl)
  · exact congrArg Instr.biase (heIn rfl)
  · rw [hsIn rfl, hefIn rfl, hmIn rfl]
  · exact congrArg Instr.enc32 (ha64 rfl)
  · exact congrArg Instr.unpack (ha32 rfl)
  · exact congrArg Instr.unbias (hefIn rfl)
  · rw [hsIn rfl, hefIn rfl, hmIn rfl]
  · exact congrArg Instr.dec32 (ha32 rfl)
  · exact congrArg Instr.class32 (ha32 rfl)
  · exact congrArg Instr.class64 (ha64 rfl)
  all_goals rfl

/-! ### exec is the block's answer (R20) -/

/-- Every operation drives a response that the strap and the operation fix. -/
theorem exec_drives (i : Instr) : ∃ f : Config → Response, ∀ s, exec i s = drive (f s.config) s := by
  by_cases h : ∃ x, i = .enc32 x
  · obtain ⟨x, rfl⟩ := h
    exact ⟨fun c => enc32Drives (encode32 c.pSubn x).word (encode32 c.pSubn x).flags, exec_enc32 x⟩
  · obtain ⟨q, hq⟩ := exec_drives_fixed_response (not_exists.mp h)
    exact ⟨fun _ => q, hq⟩

/-- The response to a request is the answer to its operation (R20, R21). -/
theorem response_eq_answer (c : Config) (r : Request) : response c r = answer c (decodeRequest r) := by
  obtain ⟨f, hf⟩ := exec_drives (decodeRequest r)
  rw [answer, response_of_exec_drive (q := f c) (hf _),
    response_of_exec_drive (q := f c) (by rw [decodeRequest_requestOf, hf])]

/-- What exec does: it drives the block's answer. -/
theorem exec_eq_drive_answer (i : Instr) (s : State) : exec i s = drive (answer s.config i) s := by
  obtain ⟨f, hf⟩ := exec_drives i
  rw [answer, response_of_exec_drive (q := f s.config) (by rw [decodeRequest_requestOf, hf]), hf]

/-- What a step does: it answers the request on the input ports. -/
theorem step_eq_drive_response (s : State) : step s = drive (response s.config s.inp) s := by
  rw [step_eq_exec, exec_eq_drive_answer, response_eq_answer]

theorem step_eq_next_iff (s t : State) :
    step s = .next t ↔ t = { s with out := response s.config s.inp } := by
  rw [step_eq_drive_response, drive_eq_next_iff]

/-- A response that exec drives in every state is the answer. -/
theorem answer_eq_of_exec {c : Config} {i : Instr} {q : Response} (h : ∀ s, exec i s = drive q s) :
    answer c i = q :=
  response_of_exec_drive (by rw [decodeRequest_requestOf, h])

/-! ### The answer to each operation (R72 to R123) -/

theorem answer_signx (c : Config) (x : Bin64) : answer c (.signx x) =
    { quiet with sOut := if class64 x = .nan then 0 else sign64 x, r64 := clearSign64 x } := rfl

/-- NORM answers with DOMAIN or with an exponent, a mantissa and flags without a saturation (R74). -/
theorem answer_norm_form (c : Config) (x : Bin64) :
    answer c (.norm x) = { quiet with err := ErrCode.domain.code } ∨
    ∃ e m exact zero, answer c (.norm x) =
      { quiet with eOut := e, mfOut := m, flags := flagBits exact false false zero } := by
  cases h : class64 x with
  | infinity | nan => exact .inl (answer_eq_of_exec (fun _ => by simp only [exec, execNorm, h, raiseErr]))
  | zero | normal | subnormal =>
    exact .inr ⟨_, _, _, _, answer_eq_of_exec (fun _ => by simp only [exec, execNorm, h]; rfl)⟩

/-- BIASE answers with a field and flags, at most one saturation among them (R76). -/
theorem answer_biase_form (c : Config) (e : ExpPort) :
    ∃ ef ovf unf, (ovf && unf) = false ∧ answer c (.biase e) =
      { quiet with efOut := ef, flags := flagBits false ovf unf false } := by
  cases h : biasExp (sval12 e) with
  | inRange b =>
    exact ⟨b, false, false, rfl, answer_eq_of_exec (fun _ => by simp only [exec, execBiase, h]; rfl)⟩
  | overflow =>
    exact ⟨_, true, false, rfl, answer_eq_of_exec (fun _ => by simp only [exec, execBiase, h]; rfl)⟩
  | underflow =>
    exact ⟨_, false, true, rfl, answer_eq_of_exec (fun _ => by simp only [exec, execBiase, h]; rfl)⟩

theorem answer_pack (c : Config) (g : SignBit) (ef : ExpField) (m : MantField) :
    answer c (.pack g ef m) = { quiet with r32 := fields32 g ef m } := rfl

theorem answer_enc32 (c : Config) (x : Bin64) : answer c (.enc32 x) =
    enc32Drives (encode32 c.pSubn x).word (encode32 c.pSubn x).flags := rfl

theorem answer_unpack (c : Config) (w : Bin32) : answer c (.unpack w) =
    { quiet with sOut := sign32 w, efOut := expf32 w, mfOut := mant32 w } := rfl

theorem answer_unbias (c : Config) (ef : ExpField) :
    answer c (.unbias ef) = { quiet with eOut := unbiasExp ef } := rfl

theorem answer_denorm (c : Config) (g : SignBit) (ef : ExpField) (m : MantField) :
    answer c (.denorm g ef m) =
      { quiet with clsOut := (class32 (fields32 g ef m)).code, r64 := out64 g ef m } := rfl

theorem answer_dec32 (c : Config) (w : Bin32) : answer c (.dec32 w) =
    { quiet with
      sOut := sign32 w
      efOut := expf32 w
      mfOut := mant32 w
      eOut := unbiasExp (expf32 w)
      clsOut := (class32 w).code
      r64 := out64 (sign32 w) (expf32 w) (mant32 w) } := rfl

theorem answer_class32 (c : Config) (w : Bin32) :
    answer c (.class32 w) = { quiet with clsOut := (class32 w).code, sOut := sign32 w } := rfl

theorem answer_class64 (c : Config) (x : Bin64) :
    answer c (.class64 x) = { quiet with clsOut := (class64 x).code, sOut := sign64 x } := rfl

theorem answer_of_reserved (c : Config) {i : Instr} (h : i.opIsDefined = false) :
    answer c i = { quiet with err := ErrCode.illegalOp.code } := by
  cases i with
  | reservedB | reservedC | reservedD | reservedE | reservedF => rfl
  | _ => cases h

/-! ### Undriven ports (R23) -/

/-- Beside an error every port but `err` is 0 (R131). -/
@[simp] theorem portValue_error (e : BitVec 2) (p : OutPort) : portValue { quiet with err := e } p = 0 := by
  cases p <;> rfl

/-- Each operation leaves 0 on the ports its row does not drive (R23). -/
theorem portValue_answer_of_undriven (c : Config) (i : Instr) (p : OutPort)
    (h : drives (requestOf i).op p = false) : portValue (answer c i) p = 0 := by
  cases i with
  | norm x =>
    rcases answer_norm_form c x with hx | ⟨e, m, exact, zero, hx⟩ <;> rw [hx]
    · exact portValue_error _ p
    · cases p <;> simp [requestOf, drives, portValue, quiet] at *
  | biase e =>
    obtain ⟨ef, ovf, unf, -, he⟩ := answer_biase_form c e
    rw [he]
    cases p <;> simp [requestOf, drives, portValue, quiet] at *
  | reservedB | reservedC | reservedD | reservedE | reservedF =>
    rw [answer_of_reserved c rfl, portValue_error]
  | _ =>
    simp only [answer_signx, answer_pack, answer_enc32, answer_unpack, answer_unbias, answer_denorm,
      answer_dec32, answer_class32, answer_class64, enc32Drives]
    cases p <;> simp [requestOf, drives, portValue, quiet] at *

/-! ## What the encoder makes of each kind of input (R71, R77, R80) -/

/-! ### Values of special and finite patterns -/

/-- A signed zero keeps its sign (R54). -/
theorem val64_of_zero {x : Bin64} (h : class64 x = .zero) : val64 x = .zero (sign64 x) := by
  rw [class64_eq] at h
  unfold val64
  split_ifs at h ⊢
  rfl

/-- A signed infinity keeps its sign (R54). -/
theorem val64_of_infinity {x : Bin64} (h : class64 x = .infinity) : val64 x = .infinity (sign64 x) := by
  rw [class64_eq] at h
  unfold val64
  split_ifs at h ⊢
  rfl

/-- A condition on the magnitude of a rational value is a condition on `mag64` (R54). -/
theorem exists_finite_iff (x : Bin64) (P : ℚ → Prop) :
    (∃ q, val64 x = .finite q ∧ P |q|) ↔
      (class64 x = .normal ∨ class64 x = .subnormal) ∧ P (mag64 x).toRat := by
  constructor
  · rintro ⟨q, hv, hq⟩
    exact ⟨class64_of_finite hv, by rwa [← abs_eq_mag64 hv]⟩
  · rintro ⟨h, hq⟩
    exact ⟨_, val64_eq_finite x h, by rwa [abs_eq_mag64 (val64_eq_finite x h)]⟩

theorem applySign_inj {g : SignBit} {a b : ℚ} : applySign g a = applySign g b ↔ a = b := by
  unfold applySign
  split <;> simp

@[simp] theorem val32_fields32 (g : SignBit) (ef : ExpField) (m : MantField) :
    val32 (fields32 g ef m) = valFields g ef m := by
  simp only [val32, sign32_fields32, expf32_fields32, mant32_fields32]

@[simp] theorem valFields_zero (g : SignBit) : valFields g 0x00#8 0#23 = .zero g := rfl

@[simp] theorem valFields_infinity (g : SignBit) : valFields g 0xFF#8 0#23 = .infinity g := rfl

/-! ### The exact arithmetic of truncation -/

/-- Scaling loses nothing exactly when scaling back the integer part gives the magnitude (R13). -/
theorem isInt_scale_iff (q : Mag) (k : ℤ) :
    (q.scale k).isInt = true ↔ ((q.scale k).floor : ℚ) * (2 : ℚ) ^ (-k) = q.toRat := by
  rw [isInt_spec, toRat_scale, zpow_neg, ← div_eq_mul_inv, div_eq_iff (by positivity)]

/-- Below 2^(-126) the mantissa of R77 fits 23 bits. -/
theorem floor_scale149_lt {q : Mag} (h0 : q.sig ≠ 0) (h : q.flog2 < -126) :
    (q.scale 149).floor < 2 ^ 23 := by
  have hfloor : ⌊q.toRat * (2 : ℚ) ^ (149 : ℤ)⌋ < 2 ^ 23 := by
    rw [Int.floor_lt]
    calc q.toRat * (2 : ℚ) ^ (149 : ℤ) < (2 : ℚ) ^ (-126 : ℤ) * (2 : ℚ) ^ (149 : ℤ) :=
          mul_lt_mul_of_pos_right ((flog2_lt_iff q h0 _).mp h) (by positivity)
      _ = ((2 ^ 23 : ℤ) : ℚ) := by norm_num
  rw [← floor_scale149] at hfloor
  exact_mod_cast hfloor

/-- The value of a word with a subnormal mantissa (R101). -/
theorem valFields_subnormal (g : SignBit) {n : ℕ} (h0 : n ≠ 0) (h : n < 2 ^ 23) :
    valFields g 0x00#8 (zext 23 n) = .finite (applySign g ((n : ℚ) * (2 : ℚ) ^ (-149 : ℤ))) := by
  have hn : (zext 23 n).toNat = n := by rw [zext, BitVec.toNat_ofNat, Nat.mod_eq_of_lt h]
  have hscale : (n : ℚ) / 2 ^ 23 * (2 : ℚ) ^ (1 - 127 : ℤ) = n * (2 : ℚ) ^ (-149 : ℤ) := by norm_num; ring
  simp only [valFields, hn, h0, BitVec.toNat_ofNat, Nat.zero_mod, if_true, if_false, hscale]

/-- The value of a word with a biased exponent in range (R101), by the 24-bit significand. -/
theorem valFields_normal (g : SignBit) {e : ℤ} {n : ℕ} (he : -126 ≤ e) (he' : e ≤ 127)
    (h : 2 ^ 23 ≤ n) (h' : n < 2 ^ 24) :
    valFields g (BitVec.ofInt 8 (e + 127)) (zext 23 (n - 2 ^ 23)) =
      .finite (applySign g ((n : ℚ) * (2 : ℚ) ^ (e - 23))) := by
  have hef : ((BitVec.ofInt 8 (e + 127)).toNat : ℤ) = e + 127 := by
    rw [BitVec.toNat_ofInt]; omega
  have hm : (zext 23 (n - 2 ^ 23)).toNat = n - 2 ^ 23 := by
    rw [zext, BitVec.toNat_ofNat, Nat.mod_eq_of_lt (by omega)]
  have hscale : (1 + ((n - 2 ^ 23 : ℕ) : ℚ) / 2 ^ 23) * (2 : ℚ) ^ e = n * (2 : ℚ) ^ (e - 23) := by
    rw [Nat.cast_sub h, zpow_sub₀ two_ne_zero]
    norm_num
    ring
  rw [valFields, if_neg (by omega), if_neg (by omega), hm, hef, add_sub_cancel_right, hscale]

/-! ### The four outcomes for a finite nonzero input -/

/-- What the encoder can do with a finite nonzero magnitude: overflow, a signed zero, a subnormal under
GRADUAL, or a normal word (R71, R76, R77). -/
theorem encodeFinite_cases (p : SubnormalPolicy) (g : SignBit) (q : Mag) :
    (128 ≤ q.flog2 ∧
      encodeFinite p g q = ⟨fields32 g 0xFF#8 0, flagBits false true false false⟩) ∨
    (q.flog2 < -126 ∧
      encodeFinite p g q = ⟨fields32 g 0x00#8 0, flagBits false false true true⟩) ∨
    (q.flog2 < -126 ∧ (q.scale 149).floor ≠ 0 ∧
      encodeFinite p g q = ⟨fields32 g 0x00#8 (zext 23 (q.scale 149).floor),
        flagBits (q.scale 149).isInt false true false⟩) ∨
    (-126 ≤ q.flog2 ∧ q.flog2 ≤ 127 ∧
      encodeFinite p g q = ⟨fields32 g (BitVec.ofInt 8 (q.flog2 + 127)) (zext 23 (norm23 q).mant),
        flagBits (norm23 q).exact false false false⟩) := by
  by_cases ho : 128 ≤ q.flog2
  · refine .inl ⟨ho, ?_⟩
    simp only [encodeFinite, norm23_e, biasExp_of_overflow (show 255 ≤ q.flog2 + 127 by omega)]
  by_cases hu : q.flog2 < -126
  · rw [encodeFinite_of_underflow p g hu]
    cases p with
    | flush => exact .inr (.inl ⟨hu, rfl⟩)
    | gradual =>
      by_cases h0 : (q.scale 149).floor = 0
      · exact .inr (.inl ⟨hu, by simp only [encodeUnderflow, h0, if_true]⟩)
      · exact .inr (.inr (.inl ⟨hu, h0, by simp only [encodeUnderflow, h0, if_false]⟩))
  · refine .inr (.inr (.inr ⟨by omega, by omega, ?_⟩))
    simp only [encodeFinite, norm23_e, biasExp_of_inRange (show 1 ≤ q.flog2 + 127 by omega) (by omega)]

theorem val32_of_subnormal_result (g : SignBit) {q : Mag} (h : q.sig ≠ 0) (hu : q.flog2 < -126)
    (h0 : (q.scale 149).floor ≠ 0) :
    val32 (fields32 g 0x00#8 (zext 23 (q.scale 149).floor)) =
      .finite (applySign g (((q.scale 149).floor : ℚ) * (2 : ℚ) ^ (-149 : ℤ))) := by
  rw [val32_fields32, valFields_subnormal g h0 (floor_scale149_lt h hu)]

theorem val32_of_normal_result (g : SignBit) {q : Mag} (h : q.sig ≠ 0) (hl : -126 ≤ q.flog2)
    (hu : q.flog2 ≤ 127) :
    val32 (fields32 g (BitVec.ofInt 8 (q.flog2 + 127)) (zext 23 (norm23 q).mant)) =
      .finite (applySign g (((q.scale (23 - q.flog2)).floor : ℚ) * (2 : ℚ) ^ (q.flog2 - 23))) := by
  obtain ⟨hlo, hhi⟩ := norm23_floor_bounds q h
  rw [val32_fields32, ← valFields_normal g hl hu hlo hhi]
  rfl

/-! ### The flags for a finite nonzero input (R24) -/

theorem ovfFlag_encodeFinite (p : SubnormalPolicy) (g : SignBit) {q : Mag} (h : q.sig ≠ 0) :
    ovfFlag (encodeFinite p g q).flags = true ↔ (2 : ℚ) ^ (128 : ℤ) ≤ q.toRat := by
  rw [← not_lt, ← flog2_lt_iff q h, not_lt]
  rcases encodeFinite_cases p g q with ⟨hq, he⟩ | ⟨hq, he⟩ | ⟨hq, -, he⟩ | ⟨-, hq, he⟩ <;>
    simp [he] <;> omega

theorem unfFlag_encodeFinite (p : SubnormalPolicy) (g : SignBit) {q : Mag} (h : q.sig ≠ 0) :
    unfFlag (encodeFinite p g q).flags = true ↔ q.toRat < (2 : ℚ) ^ (-126 : ℤ) := by
  rw [← flog2_lt_iff q h]
  rcases encodeFinite_cases p g q with ⟨hq, he⟩ | ⟨hq, he⟩ | ⟨hq, -, he⟩ | ⟨hq, -, he⟩ <;>
    simp [he] <;> omega

theorem zeroFlag_encodeFinite (p : SubnormalPolicy) (g : SignBit) {q : Mag} (h : q.sig ≠ 0) :
    zeroFlag (encodeFinite p g q).flags = true ↔ ∃ g', val32 (encodeFinite p g q).word = .zero g' := by
  rcases encodeFinite_cases p g q with ⟨-, he⟩ | ⟨-, he⟩ | ⟨hq, h0, he⟩ | ⟨hl, hu, he⟩ <;>
    rw [he]
  · simp
  · simp
  · rw [val32_of_subnormal_result g h hq h0]
    simp
  · rw [val32_of_normal_result g h hl hu]
    simp

/-- `exact` is raised exactly when the result has the input's value. -/
theorem exactFlag_encodeFinite (p : SubnormalPolicy) (g : SignBit) {q : Mag} (h : q.sig ≠ 0) :
    exactFlag (encodeFinite p g q).flags = true ↔
      val32 (encodeFinite p g q).word = .finite (applySign g q.toRat) := by
  rcases encodeFinite_cases p g q with ⟨-, he⟩ | ⟨-, he⟩ | ⟨hq, h0, he⟩ | ⟨hl, hu, he⟩ <;>
    rw [he]
  · simp
  · simp
  · rw [val32_of_subnormal_result g h hq h0, exactFlag_flagBits, Value.finite.injEq, applySign_inj,
      isInt_scale_iff]
  · rw [val32_of_normal_result g h hl hu, exactFlag_flagBits, Value.finite.injEq, applySign_inj,
      ← neg_sub 23, ← isInt_scale_iff]
    rfl

/-! ### Every input of ENC32 -/

theorem encode32_of_nan (p : SubnormalPolicy) {x : Bin64} (h : class64 x = .nan) :
    encode32 p x = ⟨canonicalNan32, flagBits true false false false⟩ := by
  simp only [encode32, h]

theorem encode32_of_infinity (p : SubnormalPolicy) {x : Bin64} (h : class64 x = .infinity) :
    encode32 p x = ⟨fields32 (sign64 x) 0xFF#8 0, flagBits true false false false⟩ := by
  simp only [encode32, h]

theorem encode32_of_zero (p : SubnormalPolicy) {x : Bin64} (h : class64 x = .zero) :
    encode32 p x = ⟨fields32 (sign64 x) 0x00#8 0, flagBits true false false true⟩ := by
  simp only [encode32, h]

/-- Neither saturation is reported for a zero, an infinity or a NaN (R80). -/
theorem no_saturation_of_special (p : SubnormalPolicy) {x : Bin64}
    (h : ¬ (class64 x = .normal ∨ class64 x = .subnormal)) :
    ovfFlag (encode32 p x).flags = false ∧ unfFlag (encode32 p x).flags = false := by
  cases hc : class64 x with
  | zero => simp [encode32_of_zero p hc]
  | infinity => simp [encode32_of_infinity p hc]
  | nan => simp [encode32_of_nan p hc]
  | normal => exact absurd (.inl hc) h
  | subnormal => exact absurd (.inr hc) h

theorem ovfFlag_encode32 (p : SubnormalPolicy) (x : Bin64) :
    ovfFlag (encode32 p x).flags = true ↔ ∃ q, val64 x = .finite q ∧ (2 : ℚ) ^ (128 : ℤ) ≤ |q| := by
  rw [exists_finite_iff x ((2 : ℚ) ^ (128 : ℤ) ≤ ·)]
  by_cases h : class64 x = .normal ∨ class64 x = .subnormal
  · rw [encode32_of_finite p h, ovfFlag_encodeFinite _ _ (mag64_sig_ne_zero_of_finite h), and_iff_right h]
  · simp [no_saturation_of_special p h, h]

theorem unfFlag_encode32 (p : SubnormalPolicy) (x : Bin64) :
    unfFlag (encode32 p x).flags = true ↔ ∃ q, val64 x = .finite q ∧ |q| < (2 : ℚ) ^ (-126 : ℤ) := by
  rw [exists_finite_iff x (· < (2 : ℚ) ^ (-126 : ℤ))]
  by_cases h : class64 x = .normal ∨ class64 x = .subnormal
  · rw [encode32_of_finite p h, unfFlag_encodeFinite _ _ (mag64_sig_ne_zero_of_finite h), and_iff_right h]
  · simp [no_saturation_of_special p h, h]

theorem zeroFlag_encode32 (p : SubnormalPolicy) (x : Bin64) :
    zeroFlag (encode32 p x).flags = true ↔ ∃ g, val32 (encode32 p x).word = .zero g := by
  by_cases h : class64 x = .normal ∨ class64 x = .subnormal
  · rw [encode32_of_finite p h]
    exact zeroFlag_encodeFinite _ _ (mag64_sig_ne_zero_of_finite h)
  cases hc : class64 x with
  | zero => simp [encode32_of_zero p hc]
  | infinity => simp [encode32_of_infinity p hc]
  | nan =>
    rw [encode32_of_nan p hc, zeroFlag_flagBits]
    simp [show val32 canonicalNan32 = .nan from rfl]
  | normal => exact absurd (.inl hc) h
  | subnormal => exact absurd (.inr hc) h

theorem exactFlag_encode32 (p : SubnormalPolicy) {x : Bin64} (hx : class64 x ≠ .nan) :
    exactFlag (encode32 p x).flags = true ↔ val32 (encode32 p x).word = val64 x := by
  by_cases h : class64 x = .normal ∨ class64 x = .subnormal
  · rw [encode32_of_finite p h, val64_eq_finite x h]
    exact exactFlag_encodeFinite _ _ (mag64_sig_ne_zero_of_finite h)
  cases hc : class64 x with
  | zero => simp [encode32_of_zero p hc, val64_of_zero hc]
  | infinity => simp [encode32_of_infinity p hc, val64_of_infinity hc]
  | nan => exact absurd hc hx
  | normal => exact absurd (.inl hc) h
  | subnormal => exact absurd (.inr hc) h

theorem encode32_not_both_saturations (p : SubnormalPolicy) (x : Bin64) :
    (ovfFlag (encode32 p x).flags && unfFlag (encode32 p x).flags) = false := by
  refine Bool.eq_false_iff.mpr fun hboth => ?_
  obtain ⟨hovf, hunf⟩ := Bool.and_eq_true_iff.mp hboth
  obtain ⟨q, hv, hq⟩ := (ovfFlag_encode32 p x).mp hovf
  obtain ⟨q', hv', hq'⟩ := (unfFlag_encode32 p x).mp hunf
  obtain rfl : q = q' := Value.finite.inj (hv.symm.trans hv')
  exact absurd (hq.trans_lt hq') (by norm_num)

/-! ## Legal responses (R23, R58, R134) -/

theorem legal_of_no_error {r : Response} (herr : r.err = 0#2) (hcls : r.clsOut.toNat ≤ 4)
    (hflags : (ovfFlag r.flags && unfFlag r.flags) = false) : r.legal :=
  ⟨hcls, by rw [herr]; decide, fun h => absurd herr h, hflags⟩

theorem legal_of_no_flags {r : Response} (herr : r.err = 0#2) (hcls : r.clsOut.toNat ≤ 4)
    (hflags : r.flags = 0) : r.legal :=
  legal_of_no_error herr hcls (by rw [hflags]; rfl)

/-- Every answer is one the block can drive. -/
theorem answer_legal (c : Config) (i : Instr) : (answer c i).legal := by
  cases i with
  | norm x =>
    rcases answer_norm_form c x with hx | ⟨e, m, exact, zero, hx⟩ <;> rw [hx]
    · decide
    · exact legal_of_no_error rfl (Nat.zero_le 4) (by simp)
  | biase e =>
    obtain ⟨ef, ovf, unf, hboth, he⟩ := answer_biase_form c e
    rw [he]
    exact legal_of_no_error rfl (Nat.zero_le 4) (by simpa using hboth)
  | enc32 x => exact legal_of_no_error rfl (code_le_four _) (encode32_not_both_saturations _ x)
  | denorm | dec32 | class32 | class64 => exact legal_of_no_flags rfl (code_le_four _) rfl
  | signx | pack | unpack | unbias => exact legal_of_no_flags rfl (Nat.zero_le 4) rfl
  | reservedB | reservedC | reservedD | reservedE | reservedF =>
    rw [answer_of_reserved c rfl]
    decide

/-! ## The obligations -/

/-- Settles O45: a step leaves the response to the inputs it does not touch, and every response is legal,
whatever stood on the outputs before. -/
theorem stepKeepsOutputsSettledAndLegal : Obligations.StepKeepsOutputsSettledAndLegal := by
  have hstep (s : State) : ({ s with out := response s.config s.inp } : State).settled ∧
      (response s.config s.inp).legal :=
    ⟨rfl, response_eq_answer s.config s.inp ▸ answer_legal _ _⟩
  constructor
  · intro s t _ ht
    obtain rfl := (step_eq_next_iff s t).mp ht
    exact hstep s
  · intro s
    exact ⟨_, step_eq_drive_response s, hstep s⟩

/-- Settles O6: each op's operation is built from the ports of its format alone. -/
theorem unreadPortsDoNotChangeTheOperation : Obligations.UnreadPortsDoNotChangeTheOperation :=
  fun _ _ => decodeRequest_congr

/-- Settles O20: the dropped digits are what the truncated word's value lacks; an overflow and a zero result
are never exact for a finite nonzero input. -/
theorem enc32ExactMeansTheSameValue : Obligations.Enc32ExactMeansTheSameValue := by
  intro c x
  rw [answer_enc32]
  refine ⟨exactFlag_encode32 c.pSubn, fun h => ?_⟩
  rw [encode32_of_nan _ h]
  exact exactFlag_flagBits _ _ _ _

/-- Settles O21, from the four outcomes of the encoder for a finite nonzero input. -/
theorem enc32FlagsReportZeroAndSaturation : Obligations.Enc32FlagsReportZeroAndSaturation := by
  intro c x
  rw [answer_enc32]
  exact ⟨zeroFlag_encode32 _ x, ovfFlag_encode32 _ x, unfFlag_encode32 _ x⟩

/-- Settles O40: operation by operation for the undriven ports, and by legality beside an error. -/
theorem undrivenOutputsAreZero : Obligations.UndrivenOutputsAreZero := by
  intro s p
  refine ⟨_, step_eq_drive_response s, ?_, ?_⟩ <;> rw [setOut_out, response_eq_answer]
  · intro h
    exact portValue_answer_of_undriven _ _ p (by rwa [requestOf_decodeRequest_op])
  · intro herr
    obtain ⟨-, -, hquiet, -⟩ := answer_legal s.config (decodeRequest s.inp)
    rw [hquiet herr, portValue_error]

/-- Settles O42: the response is the answer to the operation, which reads the format's ports alone. -/
theorem equalRequestsGetEqualResponses : Obligations.EqualRequestsGetEqualResponses := by
  intro s₁ s₂ hconfig hop hports
  refine ⟨_, _, step_eq_drive_response s₁, step_eq_drive_response s₂, ?_⟩
  simp only [response_eq_answer, hconfig, decodeRequest_congr hop hports]

/-- Settles O2; the last clause rests on decoding being a left inverse of encoding. -/
theorem stepRunsThePresentedOperation : Obligations.StepRunsThePresentedOperation := by
  refine ⟨step_eq_exec, ?_, ?_⟩
  · rintro s w i rfl
    exact step_eq_exec _
  · intro s i
    rw [step_eq_exec, withFetchWord_inp, Nat.mod_eq_of_lt (BitVec.isLt _), BitVec.ofNat_toNat,
      BitVec.setWidth_eq]
    exact congrArg (exec · _) (decode_encode i)

/-- Settles O43: each operation drives one response, fixed by the strap and its operands, so the answer computed
from quiet outputs is the response in every state. -/
theorem execDrivesTheAnswer : Obligations.ExecDrivesTheAnswer :=
  exec_eq_drive_answer

end Sys2Proof.Machine

/-! ## Requests answered one after another (R43, R46, R157) -/

namespace Sys2Proof.Machine

/-- What serving a request does: the request and its response stand on the ports, the strap stays. -/
theorem serve_eq_next (s : State) (r : Request) :
    serve s r = .next { s with inp := r, out := response s.config r } :=
  step_eq_drive_response (present s r)

theorem serveAll_cons (s : State) (r : Request) (rs : List Request) :
    serveAll s (r :: rs) =
      response s.config r :: serveAll { s with inp := r, out := response s.config r } rs := by
  rw [serveAll, serve_eq_next]

theorem serveMany_cons {n : ℕ} (blocks : Vector State n) (k : Fin n) (r : Request)
    (rs : List (Fin n × Request)) :
    serveMany blocks ((k, r) :: rs) = response (blocks.get k).config r ::
      serveMany (blocks.set k.val { blocks.get k with inp := r, out := response (blocks.get k).config r }
        k.isLt) rs := by
  rw [serveMany, serve_eq_next]

/-- Replacing one instance by a state under the same strap leaves every instance's strap as it was. -/
theorem config_get_set {n : ℕ} (blocks : Vector State n) (k j : Fin n) {t : State}
    (ht : t.config = (blocks.get k).config) :
    ((blocks.set k.val t k.isLt).get j).config = (blocks.get j).config := by
  rw [Vector.get_eq_getElem, Vector.getElem_set]
  split
  case isTrue h =>
    obtain rfl := Fin.ext h
    exact ht
  case isFalse => rfl

theorem serveAll_eq_map (s : State) (rs : List Request) :
    serveAll s rs = rs.map (response s.config) := by
  induction rs generalizing s with
  | nil => rfl
  | cons r rs ih => rw [serveAll_cons, ih, List.map_cons]

theorem serveMany_eq_map {n : ℕ} (blocks : Vector State n) (rs : List (Fin n × Request)) :
    serveMany blocks rs = rs.map fun x => response (blocks.get x.1).config x.2 := by
  induction rs generalizing blocks with
  | nil => rfl
  | cons x rs ih =>
    obtain ⟨k, r⟩ := x
    rw [serveMany_cons, ih, List.map_cons]
    congr 1
    refine List.map_congr_left fun x _ => ?_
    rw [config_get_set]
    rfl

/-- Settles O44: serving a request leaves every strap as it was, and the response reads nothing else that an
earlier request could have changed. -/
theorem responsesAreIndependent : Obligations.ResponsesAreIndependent :=
  ⟨serveAll_eq_map, fun _ => serveMany_eq_map⟩

/-- Settles O46: a step changes the outputs alone, which neither the next step's response nor its effect on
the ports depends on. -/
theorem repeatedRequestIsIdempotent : Obligations.RepeatedRequestIsIdempotent := by
  intro s
  exact ⟨_, step_eq_drive_response s, response_eq_answer _ _, rfl, rfl, step_eq_drive_response _⟩

end Sys2Proof.Machine

/-! ## The request word and the operation map (R51, R55, R56) -/

namespace Sys2Proof.Machine

/-- Every 144-bit word is the word of the request read from it (R51). -/
@[simp] theorem toWord_ofWord (w : RequestWord) : (Request.ofWord w).toWord = w := by
  apply BitVec.eq_of_toNat_eq
  rw [toNat_toWord]
  simp only [Request.ofWord, BitVec.extractLsb'_toNat, Nat.shiftRight_eq_div_pow]
  have hw := w.isLt
  omega

/-- On a number that fits a request word the table decoder is the decoder (R51). -/
theorem decodeTableWord_toNat (w : RequestWord) : decodeTableWord 144 w.toNat = some (decode w) := by
  simp only [decodeTableWord, decodeNat, Nat.mod_eq_of_lt w.isLt, w.isLt, if_true, BitVec.ofNat_toNat,
    BitVec.setWidth_eq]

/-- The defined operations are those whose op value is at most 0xA (R55, R56). -/
theorem opIsDefined_iff (i : Instr) : i.opIsDefined = true ↔ (requestOf i).op.toNat ≤ 0xA := by
  cases i <;> simp [Instr.opIsDefined, requestOf]

theorem opIsDefined_decodeRequest_iff (r : Request) :
    (decodeRequest r).opIsDefined = true ↔ r.op.toNat ≤ 0xA := by
  rw [opIsDefined_iff, requestOf_decodeRequest_op]

/-- Settles O3: reading back the word of a request gives the request, whose op and operands are the
instruction's. -/
theorem decodeOfEncodeIsTheInstruction : Obligations.DecodeOfEncodeIsTheInstruction := by
  intro i
  exact ⟨decode_encode i, by rw [decodeTableWord_toNat, decode_encode]⟩

/-- Settles O4: writing and reading a request word undo each other; the first clause is the reading of the
written word, port by port. -/
theorem requestWordIsItsPorts : Obligations.RequestWordIsItsPorts := by
  refine ⟨fun r => ?_, toWord_ofWord⟩
  have h := ofWord_toWord r
  exact ⟨congrArg Request.op h, congrArg Request.a64 h, congrArg Request.a32 h, congrArg Request.sIn h,
    congrArg Request.eIn h, congrArg Request.efIn h, congrArg Request.mIn h⟩

/-- Settles O7: decoding keeps the op value, and the 11 defined operations have the values 0x0 to 0xA. -/
theorem opSelectsTheOperation : Obligations.OpSelectsTheOperation :=
  ⟨requestOf_decodeRequest_op, opIsDefined_decodeRequest_iff⟩

end Sys2Proof.Machine

/-! ## The reported exponent (R57) -/

namespace Sys2Proof.Machine

/-- An exponent that fits the port is the one the port carries (R57). -/
theorem toInt_sext12 {e : ℤ} (hlo : -2048 ≤ e) (hhi : e ≤ 2047) : (sext12 e).toInt = e := by
  rw [sext12, BitVec.toInt_ofInt, Int.bmod_eq_of_le] <;> omega

/-- The exponent of a biased field lies between those of the fields 0 and 255 (R103). -/
theorem toInt_unbiasExp_range (ef : ExpField) :
    -127 ≤ (unbiasExp ef).toInt ∧ (unbiasExp ef).toInt ≤ 128 := by
  have hef := ef.isLt
  rw [unbiasExp, toInt_sext12] <;> omega

/-- NORM reports the exponent of a finite nonzero magnitude, and 0 beside an error and for a zero (R74). -/
theorem answer_norm_eOut (c : Config) (x : Bin64) :
    (answer c (.norm x)).eOut =
      if class64 x = .normal ∨ class64 x = .subnormal then sext12 (mag64 x).flog2 else 0 := by
  cases h : class64 x <;>
    rw [answer_eq_of_exec (fun _ => by simp only [exec, execNorm, h, raiseErr]; rfl)] <;> rfl

theorem answer_norm_eOut_range (c : Config) (x : Bin64) :
    -1074 ≤ (answer c (.norm x)).eOut.toInt ∧ (answer c (.norm x)).eOut.toInt ≤ 1023 := by
  rw [answer_norm_eOut]
  split_ifs with h
  · obtain ⟨hlo, hhi⟩ := flog2_mag64_range h
    rw [toInt_sext12 (by omega) (by omega)]
    exact ⟨hlo, hhi⟩
  · decide

/-- An operation other than NORM reports the exponent of a biased field, or drives 0 on the port. -/
theorem answer_eOut_of_ne_norm (c : Config) {i : Instr} (h : ∀ x, i ≠ .norm x) :
    (answer c i).eOut = 0 ∨ ∃ ef, (answer c i).eOut = unbiasExp ef := by
  cases i with
  | norm x => exact absurd rfl (h x)
  | biase e =>
    obtain ⟨_, _, _, -, he⟩ := answer_biase_form c e
    exact .inl (congrArg Response.eOut he)
  | enc32 | unbias | dec32 => exact .inr ⟨_, rfl⟩
  | _ => exact .inl rfl

theorem answer_eOut_range_of_ne_norm (c : Config) {i : Instr} (h : ∀ x, i ≠ .norm x) :
    -127 ≤ (answer c i).eOut.toInt ∧ (answer c i).eOut.toInt ≤ 128 := by
  rcases answer_eOut_of_ne_norm c h with h0 | ⟨ef, hef⟩
  · rw [h0]
    decide
  · rw [hef]
    exact toInt_unbiasExp_range ef

/-- Settles O47: NORM's exponents are those of binary64 magnitudes, every other operation's those of biased
fields. -/
theorem reportedExponentsStayInRange : Obligations.ReportedExponentsStayInRange := by
  intro c i
  by_cases hnorm : ∃ x, i = .norm x
  · obtain ⟨x, rfl⟩ := hnorm
    exact ⟨answer_norm_eOut_range c x, fun h => absurd rfl (h x)⟩
  · obtain ⟨hlo, hhi⟩ := answer_eOut_range_of_ne_norm c (not_exists.mp hnorm)
    exact ⟨⟨by omega, by omega⟩, fun _ => ⟨hlo, hhi⟩⟩

end Sys2Proof.Machine

/-! ## Lines of text (R62) -/

namespace Sys2Proof.Machine

/-! ### Requests by their operand ports -/

/-- A request is its op and the values on its operand ports (R21). -/
theorem request_eq_of_ports {r₁ r₂ : Request} (hop : r₁.op = r₂.op)
    (h : ∀ p : InPort, operandValue r₁ p = operandValue r₂ p) : r₁ = r₂ := by
  obtain ⟨op, a64, a32, sIn, eIn, efIn, mIn⟩ := r₁
  obtain ⟨_, _, _, _, _, _, _⟩ := r₂
  obtain rfl := hop
  obtain rfl := BitVec.eq_of_toNat_eq (h .a64)
  obtain rfl := BitVec.eq_of_toNat_eq (h .a32)
  obtain rfl := BitVec.eq_of_toNat_eq (h .sIn)
  obtain rfl := BitVec.eq_of_toNat_eq (h .eIn)
  obtain rfl := BitVec.eq_of_toNat_eq (h .efIn)
  obtain rfl := BitVec.eq_of_toNat_eq (h .mIn)
  rfl

/-- The request of an operation has 0 on the ports its format does not read, and the request's own
operands on the others (R50). -/
theorem operandValue_requestOf_decodeRequest (r : Request) (p : InPort) :
    operandValue (requestOf (decodeRequest r)) p =
      if (formatOf r.op).reads p = true then operandValue r p else 0 := by
  unfold decodeRequest
  split
  case h_16 =>
    have hop : formatOf r.op = .fnone := by
      generalize r.op = op at *
      decide +revert
    rw [hop]
    cases p <;> rfl
  all_goals
    rw [show r.op = _ from ‹_›]
    cases p <;> rfl

/-- A request with 0 on the ports its format does not read is its operation's own (log 7). -/
theorem requestOf_decodeRequest {r : Request}
    (h : ∀ p : InPort, (formatOf r.op).reads p = false → operandValue r p = 0) :
    requestOf (decodeRequest r) = r := by
  refine request_eq_of_ports (requestOf_decodeRequest_op r) fun p => ?_
  rw [operandValue_requestOf_decodeRequest]
  split_ifs with hp
  · rfl
  · exact (h p (Bool.eq_false_iff.mpr hp)).symm

/-- The mnemonics are those of the defined operations (R55). -/
theorem op_le_of_opOfMnemonic {cs : List Char} {op : BitVec 4} (h : opOfMnemonic cs = some op) :
    op.toNat ≤ 0xA := by
  obtain ⟨row, hrow, rfl⟩ := Option.map_eq_some_iff.mp h
  have hall : ∀ row ∈ mnemonics, row.2.toNat ≤ 0xA := by decide
  exact hall row (List.mem_of_find?_eq_some hrow)

/-! ### What putting the fields of a line does -/

/-- What an item of a line must be (R62): it names a port the format reads and carries a readable value. -/
def ItemReads (f : Format) (item : List Char) (p : InPort) (v : ℕ) : Prop :=
  portOfName (itemName item) = some p ∧ f.reads p = true ∧ readValue p (itemValue item) = .ok v

/-- When a list of fields is put: the first is readable, names a port not put yet, and the rest is put
after it. -/
theorem assembleFields_cons_eq_ok_iff (f : Format) (r r' : Request) (seen : List InPort)
    (item : List Char) (items : List (List Char)) :
    assembleFields f r seen (item :: items) = .ok r' ↔
      ∃ p v, ItemReads f item p v ∧ p ∉ seen ∧
        assembleFields f (setPort r p v) (p :: seen) items = .ok r' := by
  rw [assembleFields]
  constructor
  · intro h
    split at h
    · cases h
    next p hname =>
      split_ifs at h with hreads hseen
      split at h
      · cases h
      next v hvalue => exact ⟨p, v, ⟨hname, by simpa using hreads, hvalue⟩, hseen, h⟩
  · rintro ⟨p, v, ⟨hname, hreads, hvalue⟩, hseen, h⟩
    simp only [hname, hreads, hseen, hvalue, h, if_false, Bool.true_eq_false]

/-- Fields can be put exactly when each is readable and each names a port of its own, not put before. -/
theorem exists_assembleFields_eq_ok_iff (f : Format) (r : Request) (seen : List InPort)
    (items : List (List Char)) :
    (∃ r', assembleFields f r seen items = .ok r') ↔
      (∀ item ∈ items, ∃ p v, ItemReads f item p v) ∧
      (items.map fun item => portOfName (itemName item)).Nodup ∧
      ∀ item ∈ items, ∀ p ∈ seen, portOfName (itemName item) ≠ some p := by
  induction items generalizing r seen with
  | nil => simp [assembleFields]
  | cons item items ih =>
    simp only [assembleFields_cons_eq_ok_iff, List.forall_mem_cons, List.map_cons, List.nodup_cons,
      List.mem_map, not_exists, not_and]
    constructor
    · rintro ⟨r', p, v, ⟨hname, hitem⟩, hseen, h⟩
      obtain ⟨hreads, hnodup, hnew⟩ := (ih _ _).mp ⟨r', h⟩
      refine ⟨⟨⟨p, v, hname, hitem⟩, hreads⟩, ⟨fun item' hmem heq => ?_, hnodup⟩, fun q hq heq => ?_,
        fun item' hmem q hq => hnew item' hmem q (List.mem_cons_of_mem p hq)⟩
      · exact hnew item' hmem p List.mem_cons_self (heq.trans hname)
      · obtain rfl := Option.some.inj (hname.symm.trans heq)
        exact hseen hq
    · rintro ⟨⟨⟨p, v, hname, hitem⟩, hreads⟩, ⟨hfresh, hnodup⟩, hseen, hnew⟩
      have hnew' : ∀ item' ∈ items, ∀ q ∈ p :: seen, portOfName (itemName item') ≠ some q := by
        intro item' hmem q hq
        rcases List.mem_cons.mp hq with rfl | hq
        · exact fun heq => hfresh item' hmem (heq.trans hname.symm)
        · exact hnew item' hmem q hq
      obtain ⟨r', h⟩ := (ih (setPort r p v) (p :: seen)).mpr ⟨hreads, hnodup, hnew'⟩
      exact ⟨r', p, v, ⟨hname, hitem⟩, fun hp => hseen p hp hname, h⟩

/-- Putting fields keeps the op, leaves every port no field names as it was, and leaves on the port of each
field the value written. -/
theorem assembleFields_spec {f : Format} {r r' : Request} {seen : List InPort} {items : List (List Char)}
    (h : assembleFields f r seen items = .ok r') :
    r'.op = r.op ∧
    (∀ p, (∀ item ∈ items, portOfName (itemName item) ≠ some p) →
      operandValue r' p = operandValue r p) ∧
    (∀ item ∈ items, ∃ p, ItemReads f item p (operandValue r' p)) := by
  induction items generalizing r seen with
  | nil =>
    cases h
    exact ⟨rfl, fun _ _ => rfl, by simp⟩
  | cons item items ih =>
    obtain ⟨p, v, ⟨hname, hreads, hvalue⟩, -, h⟩ := (assembleFields_cons_eq_ok_iff ..).mp h
    obtain ⟨hop, hframe, hitems⟩ := ih h
    obtain ⟨-, -, hnew⟩ := (exists_assembleFields_eq_ok_iff ..).mp ⟨r', h⟩
    have hput : operandValue r' p = v := by
      rw [hframe p fun item' hmem => hnew item' hmem p List.mem_cons_self,
        operandValue_setPort_self r p v (readValue_lt hvalue)]
    refine ⟨hop.trans (setPort_op r p v), fun q hq => ?_,
      List.forall_mem_cons.mpr ⟨⟨p, hname, hreads, hput ▸ hvalue⟩, hitems⟩⟩
    obtain ⟨hne, hq⟩ := List.forall_mem_cons.mp hq
    have hpq : p ≠ q := fun heq => hne (heq ▸ hname)
    rw [hframe q hq, operandValue_setPort_of_ne r v hpq]

/-! ### The whole line -/

/-- A line assembles to the fields put on the request of its mnemonic. -/
theorem assemble_eq_ok_iff (line : List Char) (r : Request) :
    assemble line = .ok r ↔ ∃ op, opOfMnemonic (lineMnemonic line) = some op ∧
      assembleFields (formatOf op) { Request.zero with op := op } [] (lineItems line) = .ok r := by
  unfold assemble
  cases opOfMnemonic (lineMnemonic line) <;> simp

theorem operandValue_zero (op : BitVec 4) (p : InPort) :
    operandValue { Request.zero with op := op } p = 0 := by
  cases p <;> rfl

/-- Settles O48: the fields are put on the request of the mnemonic, whose ports are 0; a field names a port
the format reads, so a port the format does not read keeps its 0. -/
theorem assembledLineIsOneOperation : Obligations.AssembledLineIsOneOperation := by
  intro line r h
  obtain ⟨op, hmnemonic, hfields⟩ := (assemble_eq_ok_iff line r).mp h
  obtain ⟨rfl, hframe, hitems⟩ := assembleFields_spec hfields
  have hzero (p : InPort) (hp : ∀ item ∈ lineItems line, portOfName (itemName item) ≠ some p) :
      operandValue r p = 0 := (hframe p hp).trans (operandValue_zero _ p)
  refine ⟨hmnemonic, (opIsDefined_decodeRequest_iff r).mpr (op_le_of_opOfMnemonic hmnemonic), hitems,
    hzero, requestOf_decodeRequest fun p hp => hzero p fun item hmem hname => ?_⟩
  obtain ⟨q, hq, hreads, -⟩ := hitems item hmem
  obtain rfl := Option.some.inj (hname.symm.trans hq)
  exact Bool.false_ne_true (hp.symm.trans hreads)

/-- Settles O49: at the start of a line no port has been put, so only the line's own fields can repeat one. -/
theorem lineAssemblesExactlyWhenItsFieldsAreReadable :
    Obligations.LineAssemblesExactlyWhenItsFieldsAreReadable := by
  intro line
  simp only [assemble_eq_ok_iff]
  rw [exists_comm]
  refine exists_congr fun op => ?_
  rw [exists_and_left, exists_assembleFields_eq_ok_iff]
  simp [ItemReads]

end Sys2Proof.Machine

/-! ## Spellings of a value (R62) -/

namespace Sys2Proof.Machine

/-! ### Digits -/

/-- A digit as the library writes it is read as its value. -/
theorem digitValue_digitChar {d : ℕ} (h : d < 16) : digitValue d.digitChar = some d := by
  decide +revert

/-- The letter case of a digit does not matter (log 6). -/
theorem digitValue_congr {c c' : Char} (h : c.toUpper = c'.toUpper) : digitValue c = digitValue c' := by
  rw [digitValue, digitValue, h]

theorem readDigits_cons_digitChar {base d : ℕ} (hbase : base ≤ 16) (h : d < base) (acc : ℕ)
    (cs : List Char) :
    readDigits base acc (d.digitChar :: cs) = readDigits base (acc * base + d) cs := by
  simp only [readDigits, digitValue_digitChar (h.trans_le hbase), h, if_true]

/-- The value of a front part is what the rest is read after. -/
theorem readDigits_append (base acc : ℕ) (cs ds : List Char) :
    readDigits base acc (cs ++ ds) = (readDigits base acc cs).bind fun a => readDigits base a ds := by
  induction cs generalizing acc with
  | nil => rfl
  | cons c cs ih =>
    simp only [List.cons_append, readDigits]
    split
    · split_ifs
      · exact ih _
      · rfl
    · rfl

theorem readDigits_congr (base acc : ℕ) {cs ds : List Char}
    (h : cs.map Char.toUpper = ds.map Char.toUpper) :
    readDigits base acc cs = readDigits base acc ds := by
  induction cs generalizing acc ds with
  | nil => rw [List.map_eq_nil_iff.mp h.symm]
  | cons c cs ih =>
    obtain ⟨d, ds, rfl, hd, hds⟩ := List.map_eq_cons_iff.mp h.symm
    simp only [readDigits, digitValue_congr hd, ih _ hds.symm]

/-! ### Numbers -/

/-- Leading zeros spell nothing. -/
theorem readDigits_replicate_zero {base : ℕ} (hpos : 0 < base) (hbase : base ≤ 16) (k : ℕ)
    (cs : List Char) : readDigits base 0 (List.replicate k '0' ++ cs) = readDigits base 0 cs := by
  induction k with
  | zero => rfl
  | succ k ih =>
    calc readDigits base 0 (List.replicate (k + 1) '0' ++ cs)
        = readDigits base (0 * base + 0) (List.replicate k '0' ++ cs) :=
          readDigits_cons_digitChar hbase hpos 0 _
      _ = readDigits base 0 cs := by rw [zero_mul, zero_add, ih]

/-- Reading the digits of a number gives the number: its last digit is its remainder, and those before it
spell its quotient. -/
theorem readDigits_toDigits {base : ℕ} (hone : 1 < base) (hbase : base ≤ 16) (n : ℕ) :
    readDigits base 0 (Nat.toDigits base n) = some n := by
  induction n using Nat.strongRecOn with
  | ind n ih =>
    by_cases hn : n < base
    · rw [Nat.toDigits_of_lt_base hn, readDigits_cons_digitChar hbase hn, zero_mul, zero_add, readDigits]
    · rw [Nat.toDigits_of_base_le hone (not_lt.mp hn), readDigits_append,
        ih _ (Nat.div_lt_self (by omega) hone), Option.bind_some,
        readDigits_cons_digitChar hbase (Nat.mod_lt n (by omega)), readDigits, Nat.div_add_mod']

/-- A number is what its digits in a base stand for, with any number of leading zeros. -/
theorem readNumber_toDigits {base : ℕ} (hone : 1 < base) (hbase : base ≤ 16) (k n : ℕ) :
    readNumber base (List.replicate k '0' ++ Nat.toDigits base n) = some n := by
  rw [readNumber, if_neg (by simp [Nat.toDigits_ne_nil]),
    readDigits_replicate_zero (by omega) hbase, readDigits_toDigits hone hbase]

theorem readNumber_congr (base : ℕ) {cs ds : List Char} (h : cs.map Char.toUpper = ds.map Char.toUpper) :
    readNumber base cs = readNumber base ds := by
  have hempty : cs.isEmpty = ds.isEmpty := by
    simpa only [List.isEmpty_map] using congrArg List.isEmpty h
  rw [readNumber, readNumber, hempty, readDigits_congr base 0 h]

/-- Without `_` a binary spelling is the digits alone. -/
theorem readBinary_of_no_underscore {cs : List Char} (h : '_' ∉ cs) : readBinary cs = readNumber 2 cs := by
  have hends : ¬ (cs.head? = some '_' ∨ cs.getLast? = some '_') := by
    rintro (hc | hc)
    · exact h (List.mem_of_head? hc)
    · exact h (List.mem_of_getLast? hc)
  have hfilter : cs.filter (fun c => c != '_') = cs :=
    List.filter_eq_self.mpr fun c hc => bne_iff_ne.mpr fun heq => h (heq ▸ hc)
  rw [readBinary, if_neg hends, hfilter]

/-- `_` between binary digits stands for nothing. -/
theorem readBinary_filter {cs : List Char} (hhead : cs.head? ≠ some '_')
    (hlast : cs.getLast? ≠ some '_') :
    readBinary cs = readBinary (cs.filter fun c => c != '_') := by
  have hfilter : '_' ∉ cs.filter (fun c => c != '_') := by simp
  rw [readBinary_of_no_underscore hfilter, readBinary, if_neg (not_or.mpr ⟨hhead, hlast⟩)]

/-- In bases up to ten every character of a spelling is a decimal digit. -/
theorem isDigit_of_mem_spelling {base : ℕ} (hpos : 0 < base) (hbase : base ≤ 10) {k n : ℕ} {c : Char}
    (h : c ∈ List.replicate k '0' ++ Nat.toDigits base n) : c.isDigit = true := by
  rcases List.mem_append.mp h with h | h
  · rw [List.eq_of_mem_replicate h]
    rfl
  · exact Nat.isDigit_of_mem_toDigits hpos hbase h

/-! ### Values -/

theorem readValue_hex (p : InPort) (ds : List Char) :
    readValue p ('0' :: 'x' :: ds) = fitPort p (readNumber 16 ds) := rfl

theorem readValue_binary (p : InPort) (ds : List Char) :
    readValue p ('0' :: 'b' :: ds) = fitPort p (readBinary ds) := rfl

theorem readValue_negative (ds : List Char) :
    readValue .eIn ('-' :: ds) = fitSigned true (readNumber 10 ds) := rfl

/-- Decimal digits have no `0x`, `0b` or sign before them, so they are read as a decimal. -/
theorem readValue_decimal (p : InPort) {cs : List Char} (h : ∀ c ∈ cs, c.isDigit = true) :
    readValue p cs =
      if p = .eIn then fitSigned false (readNumber 10 cs) else fitPort p (readNumber 10 cs) := by
  unfold readValue
  split
  · exact absurd (h 'x' (by simp)) (by decide)
  · exact absurd (h 'b' (by simp)) (by decide)
  · exact absurd (h '-' (by simp)) (by decide)
  · rfl

theorem fitPort_some (p : InPort) (n : ℕ) :
    fitPort p (some n) = if n < 2 ^ portWidth p then .ok n else .error .valueTooWide := rfl

/-- A hexadecimal spelling, its letters in either case, is the number that must fit the port. -/
theorem readValue_hex_toDigits (p : InPort) {k n : ℕ} {ds : List Char}
    (h : ds.map Char.toUpper = (List.replicate k '0' ++ Nat.toDigits 16 n).map Char.toUpper) :
    readValue p ('0' :: 'x' :: ds) = fitPort p (some n) := by
  rw [readValue_hex, readNumber_congr 16 h, readNumber_toDigits (by decide) le_rfl]

/-- Capitals are one of the two cases of a hexadecimal spelling. -/
theorem readValue_hex_capitals (p : InPort) (k n : ℕ) :
    readValue p ('0' :: 'x' :: (List.replicate k '0' ++ Nat.toDigits 16 n).map Char.toUpper) =
      fitPort p (some n) :=
  readValue_hex_toDigits p (k := k) (n := n) (by
    rw [List.map_map]
    exact List.map_congr_left fun c _ => Char.toUpper_toUpper_eq_toUpper c)

theorem readValue_binary_toDigits (p : InPort) (k n : ℕ) :
    readValue p ('0' :: 'b' :: (List.replicate k '0' ++ Nat.toDigits 2 n)) = fitPort p (some n) := by
  have hdigits : '_' ∉ List.replicate k '0' ++ Nat.toDigits 2 n := fun hmem =>
    absurd (isDigit_of_mem_spelling (by decide) (by decide) hmem) (by decide)
  rw [readValue_binary, readBinary_of_no_underscore hdigits, readNumber_toDigits (by decide) (by decide)]

theorem readValue_decimal_toDigits (p : InPort) (k n : ℕ) :
    readValue p (List.replicate k '0' ++ Nat.toDigits 10 n) =
      if p = .eIn then fitSigned false (some n) else fitPort p (some n) := by
  rw [readValue_decimal p fun c => isDigit_of_mem_spelling (by decide) le_rfl,
    readNumber_toDigits (by decide) (by decide)]

/-- A decimal without a sign fits `e_in` up to 2047, as its `sext_12` pattern (R57). -/
theorem fitSigned_nonnegative {n : ℕ} (h : n ≤ 2047) :
    fitSigned false (some n) = .ok (BitVec.ofInt 12 (n : ℤ)).toNat := by
  have hpattern : (BitVec.ofInt 12 (n : ℤ)).toNat = n := by
    rw [BitVec.ofInt_natCast, BitVec.toNat_ofNat, Nat.mod_eq_of_lt (by omega)]
  rw [hpattern]
  exact if_pos h

/-- A negative decimal fits `e_in` down to -2048, as its `sext_12` pattern (R57). -/
theorem fitSigned_negative {n : ℕ} (h : n ≤ 2048) :
    fitSigned true (some n) = .ok (BitVec.ofInt 12 (-(n : ℤ))).toNat := by
  have hpattern : (BitVec.ofInt 12 (-(n : ℤ))).toNat = (4096 - n) % 4096 := by
    rw [BitVec.toNat_ofInt]
    omega
  rw [hpattern]
  exact if_pos h

/-- Settles O50: in each base the digits of a number are read back as the number, which its port then takes
or rejects by its width. -/
theorem valueSpellingsStandForTheirNumbers : Obligations.ValueSpellingsStandForTheirNumbers := by
  refine ⟨fun p k n hn => ?_, fun k n hn => ?_, fun k n hn => ?_, fun p k n hn => ?_,
    fun p ds hhead hlast => ?_⟩
  · have hfit : fitPort p (some n) = .ok n := if_pos hn
    refine ⟨?_, fun ds hds => ?_, ?_, fun hp => ?_⟩
    · rw [readValue_hex_capitals, hfit]
    · rw [readValue_hex_toDigits p hds, hfit]
    · rw [readValue_binary_toDigits, hfit]
    · rw [readValue_decimal_toDigits, if_neg hp, hfit]
  · rw [readValue_decimal_toDigits, if_pos rfl, fitSigned_nonnegative hn]
  · rw [readValue_negative, readNumber_toDigits (by decide) (by decide), fitSigned_negative hn]
  · have hfit : fitPort p (some n) = .error .valueTooWide := if_neg (not_lt.mpr hn)
    refine ⟨?_, ?_, fun hp => ?_⟩
    · rw [readValue_hex_capitals, hfit]
    · rw [readValue_binary_toDigits, hfit]
    · rw [readValue_decimal_toDigits, if_neg hp, hfit]
  · rw [readValue_binary, readValue_binary, readBinary_filter hhead hlast]

end Sys2Proof.Machine

/-! ## SIGNX: the sign and the magnitude (R72) -/

namespace Sys2Proof.Machine

theorem exec_signx (x : Bin64) (s : State) :
    exec (.signx x) s =
      drive { quiet with sOut := if class64 x = .nan then 0 else sign64 x, r64 := clearSign64 x } s := rfl

/-! ### The pattern with its sign bit cleared -/

theorem clearSign64_eq_and (x : Bin64) : clearSign64 x = x &&& 0x7FFFFFFFFFFFFFFF#64 := by
  apply BitVec.eq_of_toNat_eq
  rw [toNat_clearSign64, BitVec.toNat_and]
  exact (Nat.and_two_pow_sub_one_eq_mod x.toNat 63).symm

theorem sign64_eq_ofNat (x : Bin64) : sign64 x = BitVec.ofNat 1 (x.toNat / 2 ^ 63) := by
  rw [← toNat_sign64, BitVec.ofNat_toNat, BitVec.setWidth_eq]

@[simp] theorem sign64_clearSign64 (x : Bin64) : sign64 (clearSign64 x) = 0#1 := by
  apply BitVec.eq_of_toNat_eq
  rw [toNat_sign64, toNat_clearSign64, Nat.div_eq_of_lt (Nat.mod_lt _ (by decide))]
  rfl

@[simp] theorem expf64_clearSign64 (x : Bin64) : expf64 (clearSign64 x) = expf64 x := by
  apply BitVec.eq_of_toNat_eq
  rw [toNat_expf64, toNat_expf64, toNat_clearSign64]
  omega

@[simp] theorem mant64_clearSign64 (x : Bin64) : mant64 (clearSign64 x) = mant64 x := by
  apply BitVec.eq_of_toNat_eq
  rw [toNat_mant64, toNat_mant64, toNat_clearSign64]
  omega

/-- The category does not read the sign bit (R54). -/
theorem class64_congr {x y : Bin64} (he : expf64 x = expf64 y) (hm : mant64 x = mant64 y) :
    class64 x = class64 y := by
  simp only [class64, he, hm]

/-- The magnitude does not read the sign bit (R54). -/
theorem mag64_congr {x y : Bin64} (he : expf64 x = expf64 y) (hm : mant64 x = mant64 y) :
    mag64 x = mag64 y := by
  simp only [mag64, he, hm]

@[simp] theorem class64_clearSign64 (x : Bin64) : class64 (clearSign64 x) = class64 x :=
  class64_congr (expf64_clearSign64 x) (mant64_clearSign64 x)

@[simp] theorem mag64_clearSign64 (x : Bin64) : mag64 (clearSign64 x) = mag64 x :=
  mag64_congr (expf64_clearSign64 x) (mant64_clearSign64 x)

/-! ### Values and their signs -/

theorem val64_of_nan {x : Bin64} (h : class64 x = .nan) : val64 x = .nan := by
  rw [class64_eq] at h
  unfold val64
  split_ifs at h ⊢
  rfl

@[simp] theorem applySign_zero (q : ℚ) : applySign 0#1 q = q := rfl

/-- The sign bit of a nonzero value says whether it is negative (R15). -/
theorem applySign_neg_iff (g : SignBit) {q : ℚ} (h : 0 < q) : applySign g q < 0 ↔ g = 1#1 := by
  unfold applySign
  split_ifs with hg
  · exact iff_of_true (neg_lt_zero.mpr h) hg
  · exact iff_of_false (not_lt.mpr h.le) hg

/-- Clearing the sign bit of a rational value takes its absolute value, and the bit said whether it was
negative. -/
theorem val64_clearSign64_of_finite {x : Bin64} {q : ℚ} (hq : val64 x = .finite q) :
    val64 (clearSign64 x) = .finite |q| ∧ (sign64 x = 1#1 ↔ q < 0) := by
  have h := class64_of_finite hq
  have hpos := toRat_pos _ (mag64_sig_ne_zero_of_finite h)
  constructor
  · rw [abs_eq_mag64 hq, val64_eq_finite _ (by rwa [class64_clearSign64]), sign64_clearSign64,
      applySign_zero, mag64_clearSign64]
  · rw [val64_eq_finite x h, Value.finite.injEq] at hq
    rw [← hq, applySign_neg_iff _ hpos]

/-- Settles O8: clearing the sign bit is a mask, and the sign bit the quotient by 2^63. -/
theorem signxDrivesSignAndClearedPattern : Obligations.SignxDrivesSignAndClearedPattern := by
  refine ⟨fun r h => by simp only [decodeRequest, h], fun x s => ⟨fun h => ?_, fun h => ?_⟩⟩
  · rw [exec_signx, if_pos h, clearSign64_eq_and]
    rfl
  · rw [exec_signx, if_neg h, clearSign64_eq_and, sign64_eq_ofNat]
    rfl

/-- Settles O9: the cleared pattern has the input's category and magnitude, and sign 0. -/
theorem signxMagnitudeIsTheAbsoluteValue : Obligations.SignxMagnitudeIsTheAbsoluteValue := by
  intro x s
  refine ⟨_, exec_signx x s, ?_⟩
  dsimp only
  cases hc : class64 x with
  | zero => simp [val64_of_zero, hc]
  | infinity => simp [val64_of_infinity, hc]
  | nan => simp [val64_of_nan, hc]
  | normal =>
    have hv := val64_eq_finite x (.inl hc)
    simpa [hv] using val64_clearSign64_of_finite hv
  | subnormal =>
    have hv := val64_eq_finite x (.inr hc)
    simpa [hv] using val64_clearSign64_of_finite hv

end Sys2Proof.Machine

/-! ## NORM: the normalized form of the magnitude (R71, R74, R75) -/

namespace Sys2Proof.Machine

/-! ### What NORM drives, by the category of its operand -/

theorem exec_norm_of_nonfinite {x : Bin64} (h : class64 x = .infinity ∨ class64 x = .nan) (s : State) :
    exec (.norm x) s = drive { quiet with err := 0b10#2 } s := by
  rcases h with h | h <;> simp only [exec, execNorm, h] <;> rfl

theorem exec_norm_of_zero {x : Bin64} (h : class64 x = .zero) (s : State) :
    exec (.norm x) s = drive { quiet with flags := 0b1001#4 } s := by
  simp only [exec, execNorm, h]
  rfl

theorem exec_norm_of_finite {x : Bin64} (h : class64 x = .normal ∨ class64 x = .subnormal) (s : State) :
    exec (.norm x) s = drive
      { quiet with
        eOut := sext12 (norm23 (mag64 x)).e
        mfOut := zext 23 (norm23 (mag64 x)).mant
        flags := flagBits (norm23 (mag64 x)).exact false false false } s := by
  rcases h with h | h <;> simp only [exec, execNorm, h]

/-- NORM reads the category and the magnitude, which no sign bit changes. -/
theorem exec_norm_congr {x y : Bin64} (he : expf64 x = expf64 y) (hm : mant64 x = mant64 y) (s : State) :
    exec (.norm x) s = exec (.norm y) s := by
  simp only [exec, execNorm, class64_congr he hm, mag64_congr he hm]

theorem exec_norm_clearSign64 (x : Bin64) (s : State) :
    exec (.norm (clearSign64 x)) s = exec (.norm x) s :=
  exec_norm_congr (expf64_clearSign64 x) (mant64_clearSign64 x) s

/-! ### The normalized form over the rationals (R71) -/

theorem zext_eq_ofInt (n v : ℕ) : zext n v = BitVec.ofInt n (v : ℤ) :=
  (BitVec.ofInt_natCast n v).symm

theorem flagBits_exact (p : Prop) [Decidable p] :
    flagBits (decide p) false false false = if p then 0b0001#4 else 0b0000#4 := by
  by_cases h : p <;> simp only [h] <;> rfl

theorem flagBits_exact_only : flagBits true false false false = 0b0001#4 := rfl

theorem norm23_mant_of_finite {x : Bin64} {q : ℚ} (h : val64 x = .finite q) :
    zext 23 (norm23 (mag64 x)).mant =
      BitVec.ofInt 23 (⌊|q| * (2 : ℚ) ^ (23 - (mag64 x).flog2)⌋ - 2 ^ 23) := by
  obtain ⟨-, hmant, -⟩ := norm23_spec _ (mag64_sig_ne_zero_of_finite (class64_of_finite h))
  rw [zext_eq_ofInt, hmant, abs_eq_mag64 h]

theorem norm23_flags_of_finite {x : Bin64} {q : ℚ} (h : val64 x = .finite q) :
    flagBits (norm23 (mag64 x)).exact false false false =
      if Int.fract (|q| * (2 : ℚ) ^ (23 - (mag64 x).flog2)) = 0 then 0b0001#4 else 0b0000#4 := by
  obtain ⟨-, -, hexact⟩ := norm23_spec _ (mag64_sig_ne_zero_of_finite (class64_of_finite h))
  rw [hexact, flagBits_exact, abs_eq_mag64 h]

/-- The mantissa of R71 fits its 23 bits. -/
theorem norm23_floor_range {x : Bin64} {q : ℚ} (h : val64 x = .finite q) :
    0 ≤ ⌊|q| * (2 : ℚ) ^ (23 - (mag64 x).flog2)⌋ - 2 ^ 23 ∧
      ⌊|q| * (2 : ℚ) ^ (23 - (mag64 x).flog2)⌋ - 2 ^ 23 < 2 ^ 23 := by
  have hbounds := norm23_floor_bounds _ (mag64_sig_ne_zero_of_finite (class64_of_finite h))
  rw [abs_eq_mag64 h, ← toRat_scale, ← floor_spec]
  omega

/-- Settles O10: `e` is the magnitude's `flog2`, and `norm23` is R71's form over the rationals. -/
theorem normIsNorm23OfTheMagnitude : Obligations.NormIsNorm23OfTheMagnitude := by
  refine ⟨fun r h => by simp only [decodeRequest, h], fun x s h => exec_norm_of_nonfinite h s,
    fun x s h => exec_norm_of_zero h s, fun x s q e hq hlo hhi => ?_⟩
  obtain rfl := eq_flog2_of_finite hq hlo hhi
  have hc := class64_of_finite hq
  obtain ⟨hemin, hemax⟩ := flog2_mag64_range hc
  obtain ⟨hmmin, hmmax⟩ := norm23_floor_range hq
  refine ⟨⟨hemin, hemax, hmmin, hmmax⟩, ?_⟩
  rw [exec_norm_of_finite hc, norm23_mant_of_finite hq, norm23_flags_of_finite hq]
  rfl

/-- Settles O12: flipping bit 63 leaves the exponent and the mantissa field. -/
theorem normIgnoresTheSignBit : Obligations.NormIgnoresTheSignBit := by
  intro x s
  have he : expf64 0x8000000000000000#64 = 0#11 := by decide
  have hm : mant64 0x8000000000000000#64 = 0#52 := by decide
  apply exec_norm_congr
  · rw [expf64, expf64, BitVec.extractLsb'_xor]
    exact ((congrArg _ he).trans BitVec.xor_zero).symm
  · rw [mant64, mant64, BitVec.extractLsb'_xor]
    exact ((congrArg _ hm).trans BitVec.xor_zero).symm

/-! ### The normalized form by bits (R75) -/

theorem floor_neg (n k : ℕ) : (⟨n, -(k : ℤ)⟩ : Mag).floor = n / 2 ^ k := by
  cases k with
  | zero => simp [Mag.floor]
  | succ k =>
    have hk : ¬ 0 ≤ -((k + 1 : ℕ) : ℤ) := by omega
    simp only [Mag.floor, hk, if_false, neg_neg, Int.toNat_natCast, Nat.shiftRight_eq_div_pow]

theorem isInt_neg (n k : ℕ) : (⟨n, -(k : ℤ)⟩ : Mag).isInt = decide (n % 2 ^ k = 0) := by
  rw [Bool.eq_iff_iff, isInt_spec, floor_neg, decide_eq_true_iff, Mag.toRat, zpow_neg, zpow_natCast,
    ← div_eq_mul_inv, eq_div_iff (by positivity), ← Nat.dvd_iff_mod_eq_zero, Nat.dvd_iff_div_mul_eq]
  exact_mod_cast Iff.rfl

theorem floor_natCast (n k : ℕ) : (⟨n, (k : ℤ)⟩ : Mag).floor = n * 2 ^ k := by
  simp only [Mag.floor, Int.natCast_nonneg, if_true, Int.toNat_natCast, Nat.shiftLeft_eq]

theorem flog2_of_bounds {q : Mag} {p : ℕ} (hlo : 2 ^ p ≤ q.sig) (hhi : q.sig < 2 ^ (p + 1)) :
    q.flog2 = p + q.ex := by
  have hsig : q.sig ≠ 0 := Nat.pos_iff_ne_zero.mp (Nat.two_pow_pos p |>.trans_le hlo)
  rw [Mag.flog2, (Nat.log2_eq_iff hsig).mpr ⟨hlo, hhi⟩]

/-- `norm23` shifts the leading one of the significand to bit 23, whatever the exponent was. -/
theorem norm23_eq {q : Mag} {p : ℕ} (hlo : 2 ^ p ≤ q.sig) (hhi : q.sig < 2 ^ (p + 1)) :
    norm23 q = ⟨p + q.ex, (⟨q.sig, 23 - p⟩ : Mag).floor - 2 ^ 23, (⟨q.sig, 23 - p⟩ : Mag).isInt⟩ := by
  have hscale : q.scale (23 - q.flog2) = ⟨q.sig, 23 - p⟩ := by
    rw [flog2_of_bounds hlo hhi, Mag.scale, Mag.mk.injEq]
    exact ⟨rfl, by ring⟩
  simp only [norm23, hscale]
  rw [flog2_of_bounds hlo hhi]

/-- A significand with at least 23 bits after its leading one is shifted right. -/
theorem norm23_of_long {q : Mag} {k : ℕ} (hlo : 2 ^ (k + 23) ≤ q.sig) (hhi : q.sig < 2 ^ (k + 24)) :
    norm23 q = ⟨(k + 23 : ℕ) + q.ex, (q.sig - 2 ^ (k + 23)) / 2 ^ k,
      decide ((q.sig - 2 ^ (k + 23)) % 2 ^ k = 0)⟩ := by
  have hex : (23 : ℤ) - (k + 23 : ℕ) = -k := by push_cast; ring
  rw [norm23_eq hlo hhi, hex, floor_neg, isInt_neg, pow_add, Nat.sub_mul_div,
    Nat.sub_mul_mod (pow_add 2 k 23 ▸ hlo)]

/-- A significand with at most 23 bits after its leading one is shifted left, and loses none. -/
theorem norm23_of_short {q : Mag} {p : ℕ} (hlo : 2 ^ p ≤ q.sig) (hhi : q.sig < 2 ^ (p + 1))
    (hp : p ≤ 23) : norm23 q = ⟨p + q.ex, (q.sig - 2 ^ p) * 2 ^ (23 - p), true⟩ := by
  have hex : (23 : ℤ) - p = (23 - p : ℕ) := by omega
  have hone : 2 ^ p * 2 ^ (23 - p) = 2 ^ 23 := by rw [← pow_add, Nat.add_sub_cancel' hp]
  rw [norm23_eq hlo hhi, hex, floor_natCast, Nat.sub_mul, hone]
  simp [Mag.isInt]

/-- The bit-level form of a binary64 normal: 52 bits follow the leading one, of which 29 are dropped. -/
theorem norm23_mag64_of_normal {x : Bin64} (h : class64 x = .normal) :
    norm23 (mag64 x) = ⟨((expf64 x).toNat : ℤ) - 1023, (mant64 x).toNat / 2 ^ 29,
      decide ((mant64 x).toNat % 2 ^ 29 = 0)⟩ := by
  obtain ⟨-, -, -, hmag⟩ | ⟨hsub, -⟩ := mag64_cases (.inl h)
  · have hm := (mant64 x).isLt
    rw [hmag, norm23_of_long (k := 29) (by simp) (by simp; omega)]
    simp only [Nat.add_sub_cancel_left, NormalizedForm.mk.injEq, and_true]
    push_cast
    ring
  · simp [h] at hsub

theorem extractLsb'_29_23 (x : Bin64) : x.extractLsb' 29 23 = zext 23 ((mant64 x).toNat / 2 ^ 29) := by
  apply BitVec.eq_of_toNat_eq
  simp only [zext, BitVec.extractLsb'_toNat, Nat.shiftRight_eq_div_pow, BitVec.toNat_ofNat, toNat_mant64]
  omega

theorem extractLsb'_0_29_eq_zero_iff (x : Bin64) :
    x.extractLsb' 0 29 = 0#29 ↔ (mant64 x).toNat % 2 ^ 29 = 0 := by
  rw [BitVec.toNat_eq, BitVec.extractLsb'_toNat, toNat_mant64]
  simp

/-- Settles O13: the leading one of a normal's significand is bit 52, that of a subnormal's bit `p`, and
`norm23` shifts it to bit 23. -/
theorem normHasTheBitLevelForm : Obligations.NormHasTheBitLevelForm := by
  refine fun x s => ⟨fun hlo hhi => ?_, fun p he hlo hhi => ?_⟩
  · have hc : class64 x = .normal := by rw [class64_eq, if_neg (by omega), if_neg (by omega)]
    rw [exec_norm_of_finite (.inl hc), norm23_mag64_of_normal hc, flagBits_exact, extractLsb'_29_23]
    simp only [extractLsb'_0_29_eq_zero_iff]
    rfl
  · have hm : (mant64 x).toNat ≠ 0 := Nat.pos_iff_ne_zero.mp (Nat.two_pow_pos p |>.trans_le hlo)
    have hc : class64 x = .subnormal := by rw [class64_eq, if_pos he, if_neg hm]
    have hmag : mag64 x = ⟨(mant64 x).toNat, -1074⟩ := by
      obtain ⟨hn, -⟩ | ⟨-, -, -, hmag⟩ := mag64_cases (.inr hc)
      · simp [hc] at hn
      · exact hmag
    rw [exec_norm_of_finite (.inr hc), hmag]
    constructor <;> intro hp
    · obtain ⟨k, rfl⟩ := Nat.exists_eq_add_of_le' hp
      rw [norm23_of_long hlo hhi, flagBits_exact, Nat.add_sub_cancel]
      rfl
    · rw [norm23_of_short hlo hhi hp.le, flagBits_exact_only]
      rfl

end Sys2Proof.Machine

/-! ## BIASE and PACK (R76, R78) -/

namespace Sys2Proof.Machine

theorem exec_biase_of_inRange {p : ExpPort} (hlo : 1 ≤ p.toInt + 127) (hhi : p.toInt + 127 ≤ 254)
    (s : State) : exec (.biase p) s = drive { quiet with efOut := BitVec.ofInt 8 (p.toInt + 127) } s := by
  simp only [exec, execBiase, sval12, biasExp_of_inRange hlo hhi]

theorem exec_biase_of_overflow {p : ExpPort} (h : 255 ≤ p.toInt + 127) (s : State) :
    exec (.biase p) s =
      drive { quiet with efOut := 0xFF#8, flags := flagBits false true false false } s := by
  simp only [exec, execBiase, sval12, biasExp_of_overflow h]

theorem exec_biase_of_underflow {p : ExpPort} (h : p.toInt + 127 ≤ 0) (s : State) :
    exec (.biase p) s =
      drive { quiet with efOut := 0x00#8, flags := flagBits false false true false } s := by
  simp only [exec, execBiase, sval12, biasExp_of_underflow h]

/-- Settles O14: the three outcomes of biasing the port's signed exponent. -/
theorem biaseAddsTheBiasAndSaturates : Obligations.BiaseAddsTheBiasAndSaturates :=
  ⟨fun r h => by simp only [decodeRequest, h], fun _ s =>
    ⟨fun hlo hhi => exec_biase_of_inRange hlo hhi s, fun h => exec_biase_of_overflow h s,
      fun h => exec_biase_of_underflow h s⟩⟩

theorem fields32_eq_ofNat (g : SignBit) (ef : ExpField) (m : MantField) :
    fields32 g ef m = BitVec.ofNat 32 (g.toNat * 2 ^ 31 + ef.toNat * 2 ^ 23 + m.toNat) := by
  rw [← toNat_fields32, BitVec.ofNat_toNat, BitVec.setWidth_eq]

/-- Settles O15: the word of a field triple as a sum (R52). -/
theorem packPlacesTheFields : Obligations.PackPlacesTheFields := by
  refine ⟨fun r h => by simp only [decodeRequest, h], fun g ef m s => ?_⟩
  rw [← fields32_eq_ofNat]
  rfl

end Sys2Proof.Machine

/-! ## ENC32 (R71, R73, R77, R79, R80) -/

namespace Sys2Proof.Machine

theorem exec_enc32_of_encode32 {x : Bin64} {s : State} {r : Encoded}
    (h : encode32 s.config.pSubn x = r) :
    exec (.enc32 x) s = .next { s with out := enc32Drives r.word r.flags } := by
  rw [exec_enc32, h]
  rfl

/-- Settles O16: the exponent field and a nonzero mantissa make a NaN, whose word is the canonical one. -/
theorem enc32OfNanIsCanonical : Obligations.Enc32OfNanIsCanonical := by
  intro x s he hm
  have hc : class64 x = .nan := by rw [class64_eq, if_neg (by omega), if_pos he, if_neg hm]
  rw [exec_enc32_of_encode32 (encode32_of_nan _ hc)]
  rfl

/-! ### The finite branch, range by range -/

theorem encodeFinite_of_overflow (p : SubnormalPolicy) (g : SignBit) {q : Mag} (h : 128 ≤ q.flog2) :
    encodeFinite p g q = ⟨fields32 g 0xFF#8 0, flagBits false true false false⟩ := by
  simp only [encodeFinite, norm23_e, biasExp_of_overflow (show 255 ≤ q.flog2 + 127 by omega)]

theorem encodeFinite_of_inRange (p : SubnormalPolicy) (g : SignBit) {q : Mag} (hlo : -126 ≤ q.flog2)
    (hhi : q.flog2 ≤ 127) :
    encodeFinite p g q = ⟨fields32 g (BitVec.ofInt 8 (q.flog2 + 127)) (zext 23 (norm23 q).mant),
      flagBits (norm23 q).exact false false false⟩ := by
  simp only [encodeFinite, norm23_e, biasExp_of_inRange (show 1 ≤ q.flog2 + 127 by omega) (by omega)]

theorem encodeFinite_of_flush (g : SignBit) {q : Mag} (h : q.flog2 < -126) :
    encodeFinite .flush g q = ⟨fields32 g 0x00#8 0, flagBits false false true true⟩ := by
  rw [encodeFinite_of_underflow _ g h]
  rfl

/-- GRADUAL's word holds the truncated multiple of 2^(-149), which may be 0; its flags tell the two apart. -/
theorem encodeFinite_of_gradual (g : SignBit) {q : Mag} (h : q.flog2 < -126) :
    encodeFinite .gradual g q = ⟨fields32 g 0x00#8 (zext 23 (q.scale 149).floor),
      if (q.scale 149).floor = 0 then flagBits false false true true
      else flagBits (q.scale 149).isInt false true false⟩ := by
  rw [encodeFinite_of_underflow _ g h]
  by_cases h0 : (q.scale 149).floor = 0
  · simp only [encodeUnderflow, h0, if_true]
    rfl
  · simp only [encodeUnderflow, h0, if_false]

/-- The exactness beside an underflow (R77). -/
theorem flagBits_exact_unf (p : Prop) [Decidable p] :
    flagBits (decide p) false true false = if p then 0b0101#4 else 0b0100#4 := by
  by_cases h : p <;> simp only [h] <;> rfl

/-- The mantissa field of R77, over the rationals. -/
theorem zext_floor_scale149 (q : Mag) :
    zext 23 (q.scale 149).floor = BitVec.ofInt 23 ⌊q.toRat * (2 : ℚ) ^ (149 : ℤ)⌋ := by
  rw [zext_eq_ofInt, floor_scale149]

/-- Settles O17: the encoder's branches are chosen by the category and by the magnitude's `flog2`, and what
each drives is R71's or R77's form over the rationals. -/
theorem enc32IsTheWholeEncoder : Obligations.Enc32IsTheWholeEncoder := by
  refine ⟨fun r h => by simp only [decodeRequest, h], fun x s => ⟨fun h => ?_, fun h => ?_, fun h => ?_,
    fun q e hq hlo hhi => ?_⟩⟩
  · exact exec_enc32_of_encode32 (encode32_of_nan _ h)
  · exact exec_enc32_of_encode32 (encode32_of_infinity _ h)
  · exact exec_enc32_of_encode32 (encode32_of_zero _ h)
  obtain rfl := eq_flog2_of_finite hq hlo hhi
  have henc (p : SubnormalPolicy) := encode32_of_finite p (class64_of_finite hq)
  have hfloor : ((mag64 x).scale 149).floor = 0 ↔ ⌊|q| * (2 : ℚ) ^ (149 : ℤ)⌋ = 0 := by
    rw [abs_eq_mag64 hq, ← floor_scale149, Int.natCast_eq_zero]
  refine ⟨fun he he' => ?_, fun he => ?_, fun he hp => ?_, fun he hp h0 => ?_, fun he hp h0 => ?_⟩
  · rw [exec_enc32_of_encode32 ((henc _).trans (encodeFinite_of_inRange _ _ (by omega) (by omega))),
      norm23_mant_of_finite hq, norm23_flags_of_finite hq]
    rfl
  · exact exec_enc32_of_encode32 ((henc _).trans (encodeFinite_of_overflow _ _ (by omega)))
  · rw [exec_enc32, henc, hp, encodeFinite_of_flush _ (by omega)]
    rfl
  all_goals
    rw [exec_enc32, henc, hp, encodeFinite_of_gradual _ (by omega)]
  · rw [if_pos (hfloor.mpr h0), hfloor.mpr h0]
    rfl
  · rw [if_neg (mt hfloor.mp h0), isInt_scale149, flagBits_exact_unf, zext_floor_scale149, abs_eq_mag64 hq]
    rfl

/-! ### The out-of-range policy by magnitude -/

/-- A field in the normal range, by numbers. -/
theorem toNat_biased {e : ℤ} (hlo : -126 ≤ e) (hhi : e ≤ 127) :
    ((BitVec.ofInt 8 (e + 127)).toNat : ℤ) = e + 127 := by
  rw [BitVec.toNat_ofInt]
  omega

theorem classFields_ne_infinity {ef : ExpField} (h : ef.toNat ≠ 255) (m : MantField) :
    classFields ef m ≠ .infinity := by
  rw [classFields_eq]
  split_ifs <;> simp

/-- Only an overflow makes an infinity of a finite input. -/
theorem class32_encodeFinite_ne_infinity (p : SubnormalPolicy) (g : SignBit) {q : Mag}
    (h : q.flog2 < 128) : class32 (encodeFinite p g q).word ≠ .infinity := by
  rcases encodeFinite_cases p g q with ⟨hq, -⟩ | ⟨-, he⟩ | ⟨-, -, he⟩ | ⟨hlo, hhi, he⟩
  · omega
  all_goals
    rw [he, class32_fields32]
    apply classFields_ne_infinity
  · decide
  · decide
  · have := toNat_biased hlo hhi
    omega

/-- From `2^24 - 1` units of the last place of the top binade on, truncation gives the largest finite
word. -/
theorem encodeFinite_word_of_largest (p : SubnormalPolicy) (g : SignBit) {q : Mag} (h : q.sig ≠ 0)
    (hlo : (2 ^ 24 - 1) * (2 : ℚ) ^ (104 : ℤ) ≤ q.toRat) (hhi : q.flog2 < 128) :
    (encodeFinite p g q).word = fields32 g 0xFE#8 0x7FFFFF#23 := by
  have he : q.flog2 = 127 := by
    have : ¬ q.flog2 < 127 := by
      rw [flog2_lt_iff q h, not_lt]
      exact le_trans (by norm_num) hlo
    omega
  have hfloor : (q.scale (23 - q.flog2)).floor = 2 ^ 24 - 1 := by
    have hlt := (norm23_floor_bounds q h).2
    have hle : (2 ^ 24 - 1 : ℤ) ≤ (q.scale (23 - q.flog2)).floor := by
      rw [floor_spec, Int.le_floor, toRat_scale, he]
      calc ((2 ^ 24 - 1 : ℤ) : ℚ) = (2 ^ 24 - 1) * (2 : ℚ) ^ (104 : ℤ) * (2 : ℚ) ^ (23 - 127 : ℤ) := by
            norm_num
        _ ≤ _ := mul_le_mul_of_nonneg_right hlo (by positivity)
    omega
  have hmant : (norm23 q).mant = 2 ^ 24 - 1 - 2 ^ 23 := congrArg (· - 2 ^ 23) hfloor
  rw [encodeFinite_of_inRange p g (by omega) (by omega), hmant, he]
  rfl

/-- Settles O18: each bound on the magnitude is a bound on its `flog2`. -/
theorem enc32OutOfRangeByMagnitude : Obligations.Enc32OutOfRangeByMagnitude := by
  intro x s q hq
  have hc := class64_of_finite hq
  have hsig := mag64_sig_ne_zero_of_finite hc
  refine ⟨_, exec_enc32_of_encode32 (encode32_of_finite _ hc), ?_⟩
  rw [abs_eq_mag64 hq, ← flog2_lt_iff _ hsig, ← flog2_lt_iff _ hsig, ← not_lt, ← flog2_lt_iff _ hsig]
  simp only [enc32Drives]
  refine ⟨fun h => ?_, fun h => ⟨?_, class32_encodeFinite_ne_infinity _ _ h⟩,
    fun hhi hlo => encodeFinite_word_of_largest _ _ hsig hlo hhi, fun h hp => ?_, fun h hp => ⟨?_, ?_⟩⟩
  · rw [encodeFinite_of_overflow _ _ (not_lt.mp h)]
    rfl
  · rw [← Bool.not_eq_true, ovfFlag_encodeFinite _ _ hsig, not_le, ← flog2_lt_iff _ hsig]
    exact h
  · rw [hp, encodeFinite_of_flush _ h]
    rfl
  · rw [← floor_scale149]
    exact_mod_cast floor_scale149_lt hsig h
  · rw [hp, encodeFinite_of_gradual _ h, zext_floor_scale149]
    rfl

/-! ### Truncation (R73) -/

/-- What truncation to a multiple of `2^(-k)` keeps. -/
theorem floor_scale_bounds (q : Mag) (k : ℤ) :
    ((q.scale k).floor : ℚ) * (2 : ℚ) ^ (-k) ≤ q.toRat ∧
      q.toRat < (((q.scale k).floor : ℚ) + 1) * (2 : ℚ) ^ (-k) := by
  have hfloor : (((q.scale k).floor : ℤ) : ℚ) = (⌊q.toRat * (2 : ℚ) ^ k⌋ : ℚ) := by
    rw [floor_spec, toRat_scale]
  rw [Int.cast_natCast] at hfloor
  rw [hfloor, zpow_neg, ← div_eq_mul_inv, ← div_eq_mul_inv, div_le_iff₀ (by positivity),
    lt_div_iff₀ (by positivity)]
  exact ⟨Int.floor_le _, Int.lt_floor_add_one _⟩

/-- One sign bit gives nonzero magnitudes one sign. -/
theorem applySign_pos_congr (g : SignBit) {a b : ℚ} (ha : 0 < a) (hb : 0 < b) :
    0 < applySign g a ↔ 0 < applySign g b := by
  unfold applySign
  split_ifs
  · exact iff_of_false (by simpa using ha.le) (by simpa using hb.le)
  · exact iff_of_true ha hb

/-- Settles O19: the word's value is the 24-bit integer part of the scaled magnitude, scaled back. -/
theorem enc32TruncatesTheMagnitude : Obligations.Enc32TruncatesTheMagnitude := by
  intro x s q e hq hlo hhi hemin hemax
  obtain rfl := eq_flog2_of_finite hq hlo hhi
  have hc := class64_of_finite hq
  have hsig := mag64_sig_ne_zero_of_finite hc
  refine ⟨_, _, exec_enc32_of_encode32
    ((encode32_of_finite _ hc).trans (encodeFinite_of_inRange _ _ hemin hemax)),
    val32_of_normal_result _ hsig hemin hemax, ?_⟩
  set n := ((mag64 x).scale (23 - (mag64 x).flog2)).floor with hn
  obtain ⟨hle, hlt⟩ := floor_scale_bounds (mag64 x) (23 - (mag64 x).flog2)
  rw [← hn, neg_sub] at hle hlt
  have hone : (2 : ℚ) ^ (mag64 x).flog2 ≤ n * (2 : ℚ) ^ ((mag64 x).flog2 - 23) := by
    have hn23 : (2 ^ 23 : ℚ) ≤ n := by exact_mod_cast (norm23_floor_bounds _ hsig).1
    rw [zpow_sub₀ two_ne_zero, mul_div_assoc', le_div_iff₀ (by positivity), mul_comm]
    exact mul_le_mul_of_nonneg_right hn23 (by positivity)
  have hpos : 0 < n * (2 : ℚ) ^ ((mag64 x).flog2 - 23) := lt_of_lt_of_le (by positivity) hone
  rw [abs_applySign _ _ hpos.le, abs_eq_mag64 hq]
  refine ⟨?_, hone, hle, ?_⟩
  · rw [val64_eq_finite x hc, Value.finite.injEq] at hq
    rw [← hq]
    exact applySign_pos_congr _ hpos (toRat_pos _ hsig)
  · linarith

end Sys2Proof.Machine

/-! ## The chain SIGNX, NORM, BIASE, PACK (R82) -/

namespace Sys2Proof.Machine

theorem answer_norm_of_finite (c : Config) {x : Bin64} (h : class64 x = .normal ∨ class64 x = .subnormal) :
    answer c (.norm x) =
      { quiet with
        eOut := sext12 (mag64 x).flog2
        mfOut := zext 23 (norm23 (mag64 x)).mant
        flags := flagBits (norm23 (mag64 x)).exact false false false } :=
  answer_eq_of_exec (exec_norm_of_finite h)

/-- SIGNX hands NORM a pattern of the input's magnitude, so BIASE biases the magnitude's exponent. -/
theorem chainBiase_of_finite (c : Config) {x : Bin64} (h : class64 x = .normal ∨ class64 x = .subnormal) :
    chainBiase c x = answer c (.biase (sext12 (mag64 x).flog2)) := by
  rw [chainBiase, answer_signx, answer_norm_of_finite c (by rwa [class64_clearSign64]),
    mag64_clearSign64]

/-- The chain packs the input's sign, BIASE's field and, without a saturation, NORM's mantissa. -/
theorem chainWord_of_finite (c : Config) {x : Bin64} (h : class64 x = .normal ∨ class64 x = .subnormal) :
    chainWord c x = fields32 (sign64 x) (chainBiase c x).efOut
      (if ovfFlag (chainBiase c x).flags || unfFlag (chainBiase c x).flags then 0
        else zext 23 (norm23 (mag64 x)).mant) := by
  have hnan : class64 x ≠ .nan := by rcases h with h | h <;> rw [h] <;> decide
  rw [chainWord, answer_pack, answer_signx, answer_norm_of_finite c (by rwa [class64_clearSign64]),
    mag64_clearSign64, if_neg hnan]

/-- Settles O23: BIASE and ENC32 bias the same exponent, and each outcome gives the same word; an
underflow does so under FLUSH, whose mantissa is the 0 the host puts. -/
theorem chainRecreatesEnc32 : Obligations.ChainRecreatesEnc32 := by
  intro c x hc hunf
  obtain ⟨hmin, hmax⟩ := flog2_mag64_range hc
  have hport : (sext12 (mag64 x).flog2).toInt = (mag64 x).flog2 := toInt_sext12 (by omega) (by omega)
  rw [chainBiase_of_finite c hc] at hunf
  rw [chainWord_of_finite c hc, chainBiase_of_finite c hc, answer_enc32, encode32_of_finite _ hc]
  by_cases ho : 128 ≤ (mag64 x).flog2
  · rw [answer_eq_of_exec (exec_biase_of_overflow (by omega)), encodeFinite_of_overflow _ _ ho]
    rfl
  by_cases hu : (mag64 x).flog2 < -126
  · rw [answer_eq_of_exec (exec_biase_of_underflow (by omega))] at hunf ⊢
    have hflush : c.pSubn = .flush := by simpa using hunf
    rw [hflush, encodeFinite_of_flush _ hu]
    rfl
  · rw [answer_eq_of_exec (exec_biase_of_inRange (by omega) (by omega)),
      encodeFinite_of_inRange _ _ (by omega) (by omega), hport]
    dsimp only [quiet, enc32Drives]
    simp only [ovfFlag_zero, unfFlag_zero, Bool.or_self, Bool.false_eq_true, if_false]

end Sys2Proof.Machine

/-! ## DEC32 of ENC32 (R81) -/

namespace Sys2Proof.Machine

/-! ### The binary64 pattern of a magnitude (R54) -/

/-- `enc64` reads the magnitude's value, not how its significand and exponent are split. -/
theorem enc64_congr (g : SignBit) {a b : Mag} (ha : a.sig ≠ 0) (hb : b.sig ≠ 0) (h : a.toRat = b.toRat) :
    enc64 g a = enc64 g b := by
  have hflog : a.flog2 = b.flog2 := by
    obtain ⟨hlo, hhi⟩ := flog2_spec a ha
    obtain ⟨hlo', hhi'⟩ := flog2_spec b hb
    exact binary_exponent_unique hlo hhi (h ▸ hlo') (h ▸ hhi')
  have hfloor : (a.scale (52 - a.flog2)).floor = (b.scale (52 - b.flog2)).floor := by
    have : ((a.scale (52 - a.flog2)).floor : ℤ) = (b.scale (52 - b.flog2)).floor := by
      rw [floor_spec, floor_spec, toRat_scale, toRat_scale, h, hflog]
    exact_mod_cast this
  rw [enc64, enc64, if_neg ha, if_neg hb, hfloor, hflog]

theorem flog2_mag64_of_normal {x : Bin64} (h : class64 x = .normal) :
    (mag64 x).flog2 = ((expf64 x).toNat : ℤ) - 1023 := by
  rw [← norm23_e, norm23_mag64_of_normal h]

theorem flog2_mag64_of_subnormal {x : Bin64} (h : class64 x = .subnormal) : (mag64 x).flog2 < -1022 := by
  obtain ⟨hn, -⟩ | ⟨-, -, hm, hmag⟩ := mag64_cases (.inr h)
  · simp [h] at hn
  · have hlog : Nat.log2 (mant64 x).toNat < 52 := (Nat.log2_lt hm).mpr (mant64 x).isLt
    rw [hmag, Mag.flog2]
    dsimp only
    omega

/-- A binary64 normal is the pattern of its own sign and magnitude. -/
theorem enc64_mag64_of_normal {x : Bin64} (h : class64 x = .normal) : enc64 (sign64 x) (mag64 x) = x := by
  obtain ⟨-, hlo, -, hmag⟩ | ⟨hsub, -⟩ := mag64_cases (.inl h)
  · have hfloor : ((mag64 x).scale (52 - (mag64 x).flog2)).floor = 2 ^ 52 + (mant64 x).toNat := by
      have hscale : (mag64 x).scale (52 - (mag64 x).flog2) = ⟨2 ^ 52 + (mant64 x).toNat, ((0 : ℕ) : ℤ)⟩ := by
        rw [flog2_mag64_of_normal h, hmag, Mag.scale, Mag.mk.injEq]
        exact ⟨rfl, by push_cast; ring⟩
      rw [hscale, floor_natCast, pow_zero, mul_one]
    have hexp : ((mag64 x).flog2 + 1023).toNat = (expf64 x).toNat := by
      rw [flog2_mag64_of_normal h]
      omega
    rw [enc64, if_neg (mag64_sig_ne_zero_of_finite (.inl h)), hfloor, hexp, Nat.add_sub_cancel_left, zext,
      zext, BitVec.ofNat_toNat, BitVec.ofNat_toNat, BitVec.setWidth_eq, BitVec.setWidth_eq,
      fields64_parts]
  · simp [h] at hsub

/-- A magnitude above the binary64 subnormals is that of a normal. -/
theorem class64_eq_normal_of_flog2 {x : Bin64} (h : class64 x = .normal ∨ class64 x = .subnormal)
    (hflog : -1022 ≤ (mag64 x).flog2) : class64 x = .normal :=
  h.resolve_right fun hsub => absurd (flog2_mag64_of_subnormal hsub) (not_lt.mpr hflog)

/-- A magnitude with the input's value has the input's pattern. -/
theorem enc64_eq_of_toRat_eq {x : Bin64} (h : class64 x = .normal) {q : Mag}
    (hq : q.toRat = (mag64 x).toRat) : enc64 (sign64 x) q = x := by
  have hx := mag64_sig_ne_zero_of_finite (.inl h)
  have hsig : q.sig ≠ 0 := fun h0 => by
    have hzero : q.toRat = 0 := by rw [Mag.toRat, h0, Nat.cast_zero, zero_mul]
    exact absurd (hq ▸ hzero) (toRat_pos _ hx).ne'
  rw [enc64_congr _ hsig hx hq, enc64_mag64_of_normal h]

theorem fields64_of_zero {x : Bin64} (h : class64 x = .zero) : fields64 (sign64 x) 0 0 = x := by
  unfold class64 at h
  split_ifs at h with he hm
  conv_rhs => rw [← fields64_parts x, he, hm]

theorem fields64_of_infinity {x : Bin64} (h : class64 x = .infinity) :
    fields64 (sign64 x) 2047 0 = x := by
  unfold class64 at h
  split_ifs at h with _ _ he hm
  conv_rhs => rw [← fields64_parts x, he, hm]

/-! ### What the decoder makes of each word the encoder gives (R102) -/

theorem out64_of_subnormal (g : SignBit) {n : ℕ} (h0 : n ≠ 0) (h : n < 2 ^ 23) :
    out64 g 0x00#8 (zext 23 n) = enc64 g ⟨n, -149⟩ := by
  have hn : (zext 23 n).toNat = n := by rw [zext, BitVec.toNat_ofNat, Nat.mod_eq_of_lt h]
  have hc : classFields 0x00#8 (zext 23 n) = .subnormal := by
    rw [classFields_eq, hn, if_neg h0]
    rfl
  simp only [out64, hc, subnormalMag, hn]

theorem out64_of_normal (g : SignBit) {e : ℤ} {n : ℕ} (hlo : -126 ≤ e) (hhi : e ≤ 127)
    (h : 2 ^ 23 ≤ n) (h' : n < 2 ^ 24) :
    out64 g (BitVec.ofInt 8 (e + 127)) (zext 23 (n - 2 ^ 23)) = enc64 g ⟨n, e - 23⟩ := by
  have he := toNat_biased hlo hhi
  have hm : (zext 23 (n - 2 ^ 23)).toNat = n - 2 ^ 23 := by
    rw [zext, BitVec.toNat_ofNat, Nat.mod_eq_of_lt (by omega)]
  have hc : classFields (BitVec.ofInt 8 (e + 127)) (zext 23 (n - 2 ^ 23)) = .normal := by
    rw [classFields_eq, if_neg (by omega), if_neg (by omega)]
  have hmag : normalMag (BitVec.ofInt 8 (e + 127)) (zext 23 (n - 2 ^ 23)) = ⟨n, e - 23⟩ := by
    rw [normalMag, hm, he, Mag.mk.injEq]
    omega
  simp only [out64, hc, hmag]

theorem answer_dec32_fields32_r64 (c : Config) (g : SignBit) (ef : ExpField) (m : MantField) :
    (answer c (.dec32 (fields32 g ef m))).r64 = out64 g ef m := by
  rw [answer_dec32]
  simp only [sign32_fields32, expf32_fields32, mant32_fields32]

/-- A finite nonzero input that loses no digit is a binary64 normal, whose magnitude the word's equals. -/
theorem decode_of_exact_finite (c : Config) {x : Bin64} (h : class64 x = .normal ∨ class64 x = .subnormal)
    (hexact : exactFlag (encode32 c.pSubn x).flags = true) :
    (answer c (.dec32 (encode32 c.pSubn x).word)).r64 = x := by
  have hsig := mag64_sig_ne_zero_of_finite h
  rw [encode32_of_finite _ h] at hexact ⊢
  rcases encodeFinite_cases c.pSubn (sign64 x) (mag64 x) with
    ⟨-, he⟩ | ⟨-, he⟩ | ⟨hu, h0, he⟩ | ⟨hlo, hhi, he⟩ <;>
    rw [he, exactFlag_flagBits] at hexact
  · cases hexact
  · cases hexact
  · have hflog : ¬ (mag64 x).flog2 < -149 := by
      rwa [flog2_lt_iff _ hsig, ← floor_scale149_eq_zero_iff]
    rw [he, answer_dec32_fields32_r64, out64_of_subnormal _ h0 (floor_scale149_lt hsig hu)]
    exact enc64_eq_of_toRat_eq (class64_eq_normal_of_flog2 h (by omega)) ((isInt_scale_iff _ _).mp hexact)
  · obtain ⟨hmin, hmax⟩ := norm23_floor_bounds _ hsig
    have hvalue := (isInt_scale_iff _ _).mp hexact
    rw [neg_sub] at hvalue
    rw [he, answer_dec32_fields32_r64]
    exact (out64_of_normal _ hlo hhi hmin hmax).trans
      (enc64_eq_of_toRat_eq (class64_eq_normal_of_flog2 h (by omega)) hvalue)

/-- Settles O32: a zero and an infinity are decoded to their own fields, and an exact finite word to the
pattern of the magnitude it kept. -/
theorem decodeOfExactEncodeIsTheInput : Obligations.DecodeOfExactEncodeIsTheInput := by
  intro c x hnan hexact
  rw [answer_enc32] at hexact ⊢
  cases hc : class64 x with
  | zero =>
    rw [encode32_of_zero _ hc]
    exact (answer_dec32_fields32_r64 ..).trans (fields64_of_zero hc)
  | infinity =>
    rw [encode32_of_infinity _ hc]
    exact (answer_dec32_fields32_r64 ..).trans (fields64_of_infinity hc)
  | nan => exact absurd hc hnan
  | normal => exact decode_of_exact_finite c (.inl hc) hexact
  | subnormal => exact decode_of_exact_finite c (.inr hc) hexact

/-! ### What the decoder keeps of any word the encoder gives -/

theorem sign32_encodeFinite (p : SubnormalPolicy) (g : SignBit) (q : Mag) :
    sign32 (encodeFinite p g q).word = g := by
  rcases encodeFinite_cases p g q with ⟨-, he⟩ | ⟨-, he⟩ | ⟨-, -, he⟩ | ⟨-, -, he⟩ <;>
    rw [he, sign32_fields32]

theorem sign32_encode32 (p : SubnormalPolicy) {x : Bin64} (h : class64 x ≠ .nan) :
    sign32 (encode32 p x).word = sign64 x := by
  cases hc : class64 x with
  | zero => rw [encode32_of_zero p hc, sign32_fields32]
  | infinity => rw [encode32_of_infinity p hc, sign32_fields32]
  | nan => exact absurd hc h
  | normal => rw [encode32_of_finite p (.inl hc), sign32_encodeFinite]
  | subnormal => rw [encode32_of_finite p (.inr hc), sign32_encodeFinite]

/-- A zero, an infinity and a NaN stay what they are. -/
theorem class32_encode32_of_special (p : SubnormalPolicy) {x : Bin64}
    (h : class64 x = .zero ∨ class64 x = .infinity ∨ class64 x = .nan) :
    class32 (encode32 p x).word = class64 x := by
  rcases h with hc | hc | hc <;> rw [hc]
  · rw [encode32_of_zero p hc, class32_fields32]
    rfl
  · rw [encode32_of_infinity p hc, class32_fields32]
    rfl
  · rw [encode32_of_nan p hc]
    rfl

theorem toInt_unbiasExp (ef : ExpField) : (unbiasExp ef).toInt = (ef.toNat : ℤ) - 127 := by
  have hef := ef.isLt
  rw [unbiasExp, toInt_sext12] <;> omega

/-- Settles O34: DEC32 reports the sign, the category and the exponent of the encoder's word. -/
theorem dec32OfEnc32KeepsSignClassAndExponent : Obligations.Dec32OfEnc32KeepsSignClassAndExponent := by
  intro c x
  rw [answer_enc32, answer_dec32]
  exact ⟨sign32_encode32 _, fun h => congrArg Category.code (class32_encode32_of_special _ h),
    toInt_unbiasExp _⟩

end Sys2Proof.Machine

/-! ## The value of a field triple as a binary64 pattern (R54, R101, R102) -/

namespace Sys2Proof.Machine

/-! ### The fields of a triple and its category (R120) -/

theorem zext_toNat {n : ℕ} (v : BitVec n) : zext n v.toNat = v := by
  rw [zext, BitVec.ofNat_toNat, BitVec.setWidth_eq]

theorem classFields_eq_zero_iff (ef : ExpField) (m : MantField) :
    classFields ef m = .zero ↔ ef.toNat = 0 ∧ m.toNat = 0 := by
  rw [classFields_eq]
  split_ifs <;> simp_all

theorem classFields_eq_subnormal_iff (ef : ExpField) (m : MantField) :
    classFields ef m = .subnormal ↔ ef.toNat = 0 ∧ m.toNat ≠ 0 := by
  rw [classFields_eq]
  split_ifs <;> simp_all

theorem classFields_eq_normal_iff (ef : ExpField) (m : MantField) :
    classFields ef m = .normal ↔ 1 ≤ ef.toNat ∧ ef.toNat ≤ 254 := by
  have hef := ef.isLt
  rw [classFields_eq]
  split_ifs <;> simp <;> omega

theorem classFields_eq_infinity_iff (ef : ExpField) (m : MantField) :
    classFields ef m = .infinity ↔ ef.toNat = 255 ∧ m.toNat = 0 := by
  rw [classFields_eq]
  split_ifs <;> simp_all

theorem classFields_eq_nan_iff (ef : ExpField) (m : MantField) :
    classFields ef m = .nan ↔ ef.toNat = 255 ∧ m.toNat ≠ 0 := by
  rw [classFields_eq]
  split_ifs <;> simp_all

/-! ### Magnitudes that are exactly those of a binary64 normal -/

/-- A magnitude that `enc64` gives a pattern of its own value: at most 53 significant digits, and an exponent
in the range of the binary64 normals (R54). -/
structure Mag.IsNormal64 (q : Mag) : Prop where
  sig_ne_zero : q.sig ≠ 0
  sig_lt : q.sig < 2 ^ 53
  flog2_ge : -1022 ≤ q.flog2
  flog2_le : q.flog2 ≤ 1023

/-- `enc64` writes the digits after the leading one, bit `p`, at the top of the fraction field. -/
theorem enc64_of_bounds (g : SignBit) {q : Mag} {p : ℕ} (hlo : 2 ^ p ≤ q.sig) (hhi : q.sig < 2 ^ (p + 1))
    (hp : p ≤ 52) :
    enc64 g q = fields64 g (zext 11 (p + q.ex + 1023).toNat) (zext 52 ((q.sig - 2 ^ p) * 2 ^ (52 - p))) := by
  have hsig : q.sig ≠ 0 := Nat.pos_iff_ne_zero.mp (Nat.two_pow_pos p |>.trans_le hlo)
  have hscale : q.scale (52 - q.flog2) = ⟨q.sig, ((52 - p : ℕ) : ℤ)⟩ := by
    rw [flog2_of_bounds hlo hhi, Mag.scale, Mag.mk.injEq]
    exact ⟨rfl, by omega⟩
  have hone : 2 ^ p * 2 ^ (52 - p) = 2 ^ 52 := by rw [← pow_add, Nat.add_sub_cancel' hp]
  rw [enc64, if_neg hsig, hscale, floor_natCast, flog2_of_bounds hlo hhi, Nat.sub_mul, hone]

@[simp] theorem sign64_enc64 (g : SignBit) (q : Mag) : sign64 (enc64 g q) = g := by
  unfold enc64
  split_ifs <;> exact sign64_fields64 ..

theorem class64_fields64_of_normal (g : SignBit) {e : BitVec 11} (f : BitVec 52) (hlo : 1 ≤ e.toNat)
    (hhi : e.toNat ≤ 2046) : class64 (fields64 g e f) = .normal := by
  rw [class64_eq, expf64_fields64, if_neg (by omega), if_neg (by omega)]

theorem mag64_fields64_of_normal (g : SignBit) {e : BitVec 11} (f : BitVec 52) (hlo : 1 ≤ e.toNat) :
    mag64 (fields64 g e f) = ⟨2 ^ 52 + f.toNat, (e.toNat : ℤ) - 1075⟩ := by
  have he : e ≠ 0 := by
    rintro rfl
    exact absurd hlo (by decide)
  rw [mag64, expf64_fields64, if_neg he, mant64_fields64]

/-- The leading one and the fraction field are the significand, shifted to bit 52. -/
theorem two_pow_add_fraction {n p : ℕ} (hlo : 2 ^ p ≤ n) (hhi : n < 2 ^ (p + 1)) (hp : p ≤ 52) :
    2 ^ 52 + (zext 52 ((n - 2 ^ p) * 2 ^ (52 - p))).toNat = n * 2 ^ (52 - p) := by
  have hone : 2 ^ p * 2 ^ (52 - p) = 2 ^ 52 := by rw [← pow_add, Nat.add_sub_cancel' hp]
  have hle : 2 ^ p * 2 ^ (52 - p) ≤ n * 2 ^ (52 - p) := Nat.mul_le_mul_right _ hlo
  have hlt : n * 2 ^ (52 - p) < 2 ^ (p + 1) * 2 ^ (52 - p) :=
    Nat.mul_lt_mul_of_pos_right hhi (Nat.two_pow_pos _)
  rw [pow_succ, mul_right_comm] at hlt
  rw [zext, BitVec.toNat_ofNat, Nat.sub_mul, Nat.mod_eq_of_lt (by omega)]
  omega

/-- The pattern of such a magnitude is a normal, and its magnitude has the same value. -/
theorem enc64_spec (g : SignBit) {q : Mag} (h : q.IsNormal64) :
    class64 (enc64 g q) = .normal ∧ (mag64 (enc64 g q)).toRat = q.toRat := by
  obtain ⟨hsig, hfit, hmin, hmax⟩ := h
  obtain ⟨p, hp⟩ : ∃ p, Nat.log2 q.sig = p := ⟨_, rfl⟩
  obtain ⟨hlo, hhi⟩ := (Nat.log2_eq_iff hsig).mp hp
  have hp52 : p ≤ 52 := Nat.le_of_lt_succ (hp ▸ (Nat.log2_lt hsig).mpr hfit)
  rw [flog2_of_bounds hlo hhi] at hmin hmax
  have he : (zext 11 (p + q.ex + 1023).toNat).toNat = (p + q.ex + 1023).toNat := by
    rw [zext, BitVec.toNat_ofNat, Nat.mod_eq_of_lt (by omega)]
  rw [enc64_of_bounds g hlo hhi hp52]
  refine ⟨class64_fields64_of_normal g _ (by omega) (by omega), ?_⟩
  rw [mag64_fields64_of_normal g _ (by omega), two_pow_add_fraction hlo hhi hp52, he, Mag.toRat, Mag.toRat,
    Nat.cast_mul, Nat.cast_pow, Nat.cast_two, mul_assoc, ← zpow_natCast, ← zpow_add₀ two_ne_zero]
  congr 2
  dsimp only
  omega

theorem val64_enc64 (g : SignBit) {q : Mag} (h : q.IsNormal64) :
    val64 (enc64 g q) = .finite (applySign g q.toRat) := by
  obtain ⟨hc, hq⟩ := enc64_spec g h
  rw [val64_eq_finite _ (.inl hc), sign64_enc64, hq]

/-! ### The magnitudes of field triples (R101) -/

theorem flog2_subnormalMag_range {m : MantField} (h : m.toNat ≠ 0) :
    -149 ≤ (subnormalMag m).flog2 ∧ (subnormalMag m).flog2 < -126 := by
  have hlog : Nat.log2 m.toNat < 23 := (Nat.log2_lt h).mpr m.isLt
  simp only [subnormalMag, Mag.flog2]
  omega

theorem isNormal64_subnormalMag {m : MantField} (h : m.toNat ≠ 0) : (subnormalMag m).IsNormal64 := by
  have hm : m.toNat < 2 ^ 53 := m.isLt.trans (by decide)
  obtain ⟨hlo, hhi⟩ := flog2_subnormalMag_range h
  exact ⟨h, hm, by omega, by omega⟩

/-- The leading one of a normal triple's significand is bit 23. -/
theorem normalMag_sig_bounds (ef : ExpField) (m : MantField) :
    2 ^ 23 ≤ (normalMag ef m).sig ∧ (normalMag ef m).sig < 2 ^ (23 + 1) := by
  have hm := m.isLt
  simp only [normalMag]
  omega

theorem flog2_normalMag (ef : ExpField) (m : MantField) :
    (normalMag ef m).flog2 = (ef.toNat : ℤ) - 127 := by
  obtain ⟨hlo, hhi⟩ := normalMag_sig_bounds ef m
  rw [flog2_of_bounds hlo hhi, normalMag]
  push_cast
  ring

theorem isNormal64_normalMag (ef : ExpField) (m : MantField) : (normalMag ef m).IsNormal64 := by
  have hef := ef.isLt
  obtain ⟨hlo, hhi⟩ := normalMag_sig_bounds ef m
  have hflog := flog2_normalMag ef m
  exact ⟨by omega, by omega, by omega, by omega⟩

/-! ### `out64` by category (R102) -/

theorem out64_of_class_zero (g : SignBit) {ef : ExpField} {m : MantField} (h : classFields ef m = .zero) :
    out64 g ef m = fields64 g 0 0 := by
  simp only [out64, h]

theorem out64_of_class_subnormal (g : SignBit) {ef : ExpField} {m : MantField}
    (h : classFields ef m = .subnormal) : out64 g ef m = enc64 g (subnormalMag m) := by
  simp only [out64, h]

theorem out64_of_class_normal (g : SignBit) {ef : ExpField} {m : MantField}
    (h : classFields ef m = .normal) : out64 g ef m = enc64 g (normalMag ef m) := by
  simp only [out64, h]

theorem out64_of_class_infinity (g : SignBit) {ef : ExpField} {m : MantField}
    (h : classFields ef m = .infinity) : out64 g ef m = fields64 g 0x7FF#11 0 := by
  simp only [out64, h]

theorem out64_of_class_nan (g : SignBit) {ef : ExpField} {m : MantField} (h : classFields ef m = .nan) :
    out64 g ef m = canonicalNan64 := by
  simp only [out64, h]

theorem class64_fields64_zero (g : SignBit) : class64 (fields64 g 0 0) = .zero := by
  rw [class64, expf64_fields64, mant64_fields64]
  rfl

theorem class64_fields64_infinity (g : SignBit) : class64 (fields64 g 0x7FF#11 0) = .infinity := by
  rw [class64, expf64_fields64, mant64_fields64]
  rfl

theorem class64_canonicalNan64 : class64 canonicalNan64 = .nan := by decide

theorem valFields_of_class_subnormal (g : SignBit) {ef : ExpField} {m : MantField}
    (h : classFields ef m = .subnormal) :
    valFields g ef m = .finite (applySign g (subnormalMag m).toRat) := by
  obtain ⟨he, hm⟩ := (classFields_eq_subnormal_iff ef m).mp h
  obtain rfl : ef = 0x00#8 := BitVec.eq_of_toNat_eq he
  have hvalue := valFields_subnormal g hm m.isLt
  rwa [zext_toNat] at hvalue

theorem valFields_of_class_normal (g : SignBit) {ef : ExpField} {m : MantField}
    (h : classFields ef m = .normal) :
    valFields g ef m = .finite (applySign g (normalMag ef m).toRat) := by
  obtain ⟨hlo, hhi⟩ := (classFields_eq_normal_iff ef m).mp h
  obtain ⟨hsig, hsig'⟩ := normalMag_sig_bounds ef m
  have hvalue := valFields_normal g (e := (ef.toNat : ℤ) - 127) (by omega) (by omega) hsig hsig'
  rwa [sub_add_cancel, ← zext_eq_ofInt, zext_toNat, normalMag, Nat.add_sub_cancel_left, zext_toNat,
    sub_sub] at hvalue

/-- `out64` has the value of the triple (R101, R102). -/
theorem val64_out64 (g : SignBit) (ef : ExpField) (m : MantField) :
    val64 (out64 g ef m) = valFields g ef m := by
  cases h : classFields ef m with
  | zero =>
    obtain ⟨he, hm⟩ := (classFields_eq_zero_iff ef m).mp h
    rw [out64_of_class_zero g h, val64_of_zero (class64_fields64_zero g), sign64_fields64, valFields,
      if_pos he, if_pos hm]
  | subnormal =>
    rw [out64_of_class_subnormal g h, valFields_of_class_subnormal g h]
    exact val64_enc64 g (isNormal64_subnormalMag ((classFields_eq_subnormal_iff ef m).mp h).2)
  | normal =>
    rw [out64_of_class_normal g h, valFields_of_class_normal g h]
    exact val64_enc64 g (isNormal64_normalMag ef m)
  | infinity =>
    obtain ⟨he, hm⟩ := (classFields_eq_infinity_iff ef m).mp h
    rw [out64_of_class_infinity g h, val64_of_infinity (class64_fields64_infinity g), sign64_fields64,
      valFields, if_neg (by omega), if_pos he, if_pos hm]
  | nan =>
    obtain ⟨he, hm⟩ := (classFields_eq_nan_iff ef m).mp h
    rw [out64_of_class_nan g h, val64_of_nan class64_canonicalNan64, valFields, if_neg (by omega),
      if_pos he, if_neg hm]

/-- Settles O27: DENORM drives `out64` of the triple, and DEC32 of the packed triple reads the same triple
back from the word. -/
theorem denormGivesTheExactValue : Obligations.DenormGivesTheExactValue := by
  refine ⟨fun r h => by simp only [decodeRequest, h], fun g ef m s =>
    ⟨out64 g ef m, rfl, val64_out64 g ef m, fun h => out64_of_class_nan g ?_,
      answer_dec32_fields32_r64 _ g ef m, rfl⟩⟩
  rwa [← class32_fields32 g]

/-- Settles O29: DEC32 drives `out64` of the word's own fields. -/
theorem dec32GivesTheExactValue : Obligations.Dec32GivesTheExactValue :=
  ⟨fun r h => by simp only [decodeRequest, h], fun w s =>
    ⟨out64 (sign32 w) (expf32 w) (mant32 w), rfl, val64_out64 _ _ _, fun h => out64_of_class_nan _ h⟩⟩

/-! ### DENORM bit by bit (R102) -/

theorem exec_denorm_of_class {g : SignBit} {ef : ExpField} {m : MantField} {k : Category}
    (h : classFields ef m = k) (s : State) :
    exec (.denorm g ef m) s = drive { quiet with clsOut := k.code, r64 := out64 g ef m } s := by
  rw [← h, ← class32_fields32 g]
  rfl

/-- 23 fraction bits fill the top of the 52. -/
theorem fields64_mantField (g : SignBit) (e : BitVec 11) (m : MantField) :
    fields64 g e (zext 52 (m.toNat * 2 ^ 29)) = g ++ e ++ m ++ 0#29 := by
  have hm := m.isLt
  have happend : zext 52 (m.toNat * 2 ^ 29) = m ++ 0#29 := by
    apply BitVec.eq_of_toNat_eq
    rw [zext, BitVec.toNat_ofNat, Nat.mod_eq_of_lt (by omega), BitVec.toNat_append, Nat.shiftLeft_eq]
    simp
  rw [fields64, happend]
  exact (BitVec.append_assoc (x₁ := g ++ e) (x₂ := m) (x₃ := 0#29)).symm

/-- Settles O28: the leading one of a subnormal triple is bit `p`, that of a normal one bit 23. -/
theorem denormHasTheBitLevelForm : Obligations.DenormHasTheBitLevelForm := by
  refine fun g ef m s => ⟨fun he hm => ?_, fun p he hlo hhi => ?_, fun hlo hhi => ?_, fun he hm => ?_,
    fun he hm => ?_⟩
  · have hc := (classFields_eq_zero_iff ef m).mpr ⟨he, hm⟩
    rw [exec_denorm_of_class hc, out64_of_class_zero g hc]
    rfl
  · have hm : m.toNat ≠ 0 := Nat.pos_iff_ne_zero.mp (Nat.two_pow_pos p |>.trans_le hlo)
    have hc := (classFields_eq_subnormal_iff ef m).mpr ⟨he, hm⟩
    have hp : p < 23 := (Nat.pow_lt_pow_iff_right (by decide)).mp (hlo.trans_lt m.isLt)
    have hex : ((p : ℤ) + -149 + 1023).toNat = p + 874 := by omega
    rw [exec_denorm_of_class hc, out64_of_class_subnormal g hc,
      enc64_of_bounds (q := subnormalMag m) g hlo hhi (by omega), subnormalMag, hex]
    rfl
  · have hc := (classFields_eq_normal_iff ef m).mpr ⟨hlo, hhi⟩
    obtain ⟨hsig, hsig'⟩ := normalMag_sig_bounds ef m
    have hex : (((23 : ℕ) : ℤ) + ((ef.toNat : ℤ) - 150) + 1023).toNat = ef.toNat + 896 := by omega
    rw [exec_denorm_of_class hc, out64_of_class_normal g hc, enc64_of_bounds g hsig hsig' (by decide),
      normalMag, hex, Nat.add_sub_cancel_left, fields64_mantField]
    rfl
  · have hc := (classFields_eq_infinity_iff ef m).mpr ⟨he, hm⟩
    rw [exec_denorm_of_class hc, out64_of_class_infinity g hc]
    rfl
  · have hc := (classFields_eq_nan_iff ef m).mpr ⟨he, hm⟩
    rw [exec_denorm_of_class hc, out64_of_class_nan g hc]
    rfl

end Sys2Proof.Machine

/-! ## ENC32 of DEC32 (R108) -/

namespace Sys2Proof.Machine

/-! ### The encoder reads the value of a magnitude, not how its significand and exponent are split -/

theorem flog2_congr {a b : Mag} (ha : a.sig ≠ 0) (hb : b.sig ≠ 0) (h : a.toRat = b.toRat) :
    a.flog2 = b.flog2 := by
  obtain ⟨hlo, hhi⟩ := flog2_spec a ha
  obtain ⟨hlo', hhi'⟩ := flog2_spec b hb
  exact binary_exponent_unique hlo hhi (h ▸ hlo') (h ▸ hhi')

theorem floor_scale_congr {a b : Mag} (h : a.toRat = b.toRat) (k : ℤ) :
    (a.scale k).floor = (b.scale k).floor := by
  have hfloor : ((a.scale k).floor : ℤ) = (b.scale k).floor := by
    rw [floor_spec, floor_spec, toRat_scale, toRat_scale, h]
  exact_mod_cast hfloor

theorem isInt_scale_congr {a b : Mag} (h : a.toRat = b.toRat) (k : ℤ) :
    (a.scale k).isInt = (b.scale k).isInt := by
  rw [isInt_eq_fract, isInt_eq_fract, toRat_scale, toRat_scale, h]

theorem encodeFinite_congr (p : SubnormalPolicy) (g : SignBit) {a b : Mag} (ha : a.sig ≠ 0)
    (hb : b.sig ≠ 0) (h : a.toRat = b.toRat) : encodeFinite p g a = encodeFinite p g b := by
  simp only [encodeFinite, norm23, encodeUnderflow, flog2_congr ha hb h, floor_scale_congr h,
    isInt_scale_congr h]

/-- Encoding the pattern of a magnitude encodes the magnitude. -/
theorem encode32_enc64 (p : SubnormalPolicy) (g : SignBit) {q : Mag} (h : q.IsNormal64) :
    encode32 p (enc64 g q) = encodeFinite p g q := by
  obtain ⟨hc, hq⟩ := enc64_spec g h
  rw [encode32_of_finite p (.inl hc), sign64_enc64,
    encodeFinite_congr p g (mag64_sig_ne_zero_of_finite (.inl hc)) h.sig_ne_zero hq]

/-! ### The magnitude of a triple is encoded to the triple -/

/-- A multiple of 2^(-149) loses nothing under GRADUAL (R77). -/
theorem encodeFinite_subnormalMag_word (g : SignBit) {m : MantField} (h : m.toNat ≠ 0) :
    (encodeFinite .gradual g (subnormalMag m)).word = fields32 g 0x00#8 m := by
  have hfloor : ((subnormalMag m).scale 149).floor = m.toNat := (floor_natCast m.toNat 0).trans (mul_one _)
  rw [encodeFinite_of_gradual g (flog2_subnormalMag_range h).2, hfloor, zext_toNat]

/-- The 23 bits after the leading one of a normal triple are its mantissa field, and its exponent is in
range (R71, R76). -/
theorem encodeFinite_normalMag_word (p : SubnormalPolicy) (g : SignBit) {ef : ExpField} (m : MantField)
    (hlo : 1 ≤ ef.toNat) (hhi : ef.toNat ≤ 254) :
    (encodeFinite p g (normalMag ef m)).word = fields32 g ef m := by
  obtain ⟨hsig, hsig'⟩ := normalMag_sig_bounds ef m
  have hflog := flog2_normalMag ef m
  have hmant : (norm23 (normalMag ef m)).mant = m.toNat := by
    rw [norm23_of_short hsig hsig' le_rfl]
    simp [normalMag]
  rw [encodeFinite_of_inRange p g (by omega) (by omega), hmant, zext_toNat, hflog, sub_add_cancel,
    ← zext_eq_ofInt, zext_toNat]

/-- Encoding `out64` of a triple packs the triple (R108). -/
theorem encode32_out64_word {p : SubnormalPolicy} (g : SignBit) {ef : ExpField} {m : MantField}
    (hnan : classFields ef m ≠ .nan) (hp : p = .gradual ∨ classFields ef m ≠ .subnormal) :
    (encode32 p (out64 g ef m)).word = fields32 g ef m := by
  cases h : classFields ef m with
  | zero =>
    obtain ⟨he, hm⟩ := (classFields_eq_zero_iff ef m).mp h
    obtain rfl : ef = 0x00#8 := BitVec.eq_of_toNat_eq he
    obtain rfl : m = 0 := BitVec.eq_of_toNat_eq hm
    rw [out64_of_class_zero g h, encode32_of_zero p (class64_fields64_zero g), sign64_fields64]
  | subnormal =>
    obtain ⟨he, hm⟩ := (classFields_eq_subnormal_iff ef m).mp h
    obtain rfl : ef = 0x00#8 := BitVec.eq_of_toNat_eq he
    obtain rfl : p = .gradual := hp.resolve_right (not_not.mpr h)
    rw [out64_of_class_subnormal g h, encode32_enc64 _ g (isNormal64_subnormalMag hm),
      encodeFinite_subnormalMag_word g hm]
  | normal =>
    obtain ⟨hlo, hhi⟩ := (classFields_eq_normal_iff ef m).mp h
    rw [out64_of_class_normal g h, encode32_enc64 p g (isNormal64_normalMag ef m),
      encodeFinite_normalMag_word p g m hlo hhi]
  | infinity =>
    obtain ⟨he, hm⟩ := (classFields_eq_infinity_iff ef m).mp h
    obtain rfl : ef = 0xFF#8 := BitVec.eq_of_toNat_eq he
    obtain rfl : m = 0 := BitVec.eq_of_toNat_eq hm
    rw [out64_of_class_infinity g h, encode32_of_infinity p (class64_fields64_infinity g), sign64_fields64]
  | nan => exact absurd h hnan

/-- Settles O31: `out64` keeps the value of the word's fields in a binary64 normal, a zero or an infinity, and
the encoder drops no digit of it; every NaN becomes the canonical one on both sides. -/
theorem encodeOfDecodeIsThePattern : Obligations.EncodeOfDecodeIsThePattern := by
  intro c w
  rw [answer_enc32, answer_dec32]
  constructor
  · intro hnan hp
    exact (encode32_out64_word _ hnan hp).trans (fields32_parts w)
  · intro hnan
    rw [out64_of_class_nan _ hnan, encode32_of_nan _ class64_canonicalNan64]
    rfl

end Sys2Proof.Machine

/-! ## UNPACK and UNBIAS (R100, R103) -/

namespace Sys2Proof.Machine

theorem sign32_eq_ofNat (w : Bin32) : sign32 w = BitVec.ofNat 1 (w.toNat / 2 ^ 31) := by
  rw [sign32, BitVec.extractLsb', Nat.shiftRight_eq_div_pow]

theorem expf32_eq_ofNat (w : Bin32) : expf32 w = BitVec.ofNat 8 (w.toNat / 2 ^ 23) := by
  rw [expf32, BitVec.extractLsb', Nat.shiftRight_eq_div_pow]

theorem mant32_eq_ofNat (w : Bin32) : mant32 w = BitVec.ofNat 23 w.toNat := by
  rw [mant32, BitVec.extractLsb', Nat.shiftRight_zero]

/-- Settles O24: each field is the word shifted down and cut to the field's width. -/
theorem unpackSplitsTheWord : Obligations.UnpackSplitsTheWord := by
  refine ⟨fun r h => by simp only [decodeRequest, h], fun w s => ?_⟩
  rw [exec_eq_drive_answer, answer_unpack, sign32_eq_ofNat, expf32_eq_ofNat, mant32_eq_ofNat]
  rfl

/-- Settles O25: the difference fits the 12-bit port. -/
theorem unbiasSubtractsTheBias : Obligations.UnbiasSubtractsTheBias :=
  ⟨fun r h => by simp only [decodeRequest, h], fun ef _ => ⟨rfl, toInt_unbiasExp ef⟩⟩

/-- UNBIAS gives back an exponent that biasing keeps in range (R76, R103). -/
theorem unbiasExp_biased {p : ExpPort} (hlo : -126 ≤ p.toInt) (hhi : p.toInt ≤ 127) :
    unbiasExp (BitVec.ofInt 8 (p.toInt + 127)) = p := by
  rw [unbiasExp, toNat_biased hlo hhi, add_sub_cancel_right, sext12, BitVec.ofInt_toInt]

/-- Settles O26: the fields of a packed word are its parts, and in range the biased field is the exponent
plus 127. -/
theorem subOperationsUndoEachOther : Obligations.SubOperationsUndoEachOther := by
  refine ⟨fun c g ef m => ?_, fun c p hlo hhi => ?_⟩
  · simp only [answer_pack, answer_unpack, sign32_fields32, expf32_fields32, mant32_fields32]
  · rw [answer_unbias, answer_eq_of_exec (exec_biase_of_inRange (by omega) (by omega))]
    exact unbiasExp_biased hlo hhi

end Sys2Proof.Machine

/-! ## CLASS32 and CLASS64 (R54, R120, R121, R123, R124) -/

namespace Sys2Proof.Machine

/-- The category of a pattern with the sign bit left out, as its code, by the range it falls in: below the
least normal pattern, below the pattern of an infinity, or above it (R54, R120, R58). -/
def codeByRange (leastNormal infinity v : ℕ) : BitVec 3 :=
  if v = 0 then 0b000#3
  else if v < leastNormal then 0b001#3
  else if v < infinity then 0b010#3
  else if v = infinity then 0b011#3
  else 0b100#3

/-- The exponent field stands above a mantissa field of values below `h`, so the rows of R120 and of R54,
stated by the two fields, are ranges of the one number the fields make. -/
theorem code_of_fields_eq_codeByRange {e m h top : ℕ} (htop : 0 < top) (he : e ≤ top) (hm : m < h) :
    (if e = 0 then (if m = 0 then Category.zero else .subnormal)
      else if e = top then (if m = 0 then .infinity else .nan)
      else .normal).code = codeByRange h (top * h) (e * h + m) := by
  obtain rfl | hpos := Nat.eq_zero_or_pos e
  · by_cases hzero : m = 0 <;> simp [codeByRange, hzero, hm, Category.code]
  · have hleast : h ≤ e * h := Nat.le_mul_of_pos_left h hpos
    rw [codeByRange, if_neg hpos.ne', if_neg (show e * h + m ≠ 0 by omega),
      if_neg (show ¬ e * h + m < h by omega)]
    obtain rfl | hlt := he.eq_or_lt
    · by_cases hzero : m = 0 <;> simp [hzero, Category.code]
    · have hstep : (e + 1) * h ≤ top * h := Nat.mul_le_mul_right h hlt
      rw [Nat.succ_mul] at hstep
      rw [if_neg hlt.ne, if_pos (show e * h + m < top * h by omega)]
      rfl

theorem code_class32 (w : Bin32) :
    (class32 w).code = codeByRange 0x00800000 0x7F800000 (w.toNat % 2 ^ 31) := by
  have hword : w.toNat % 2 ^ 31 = w.toNat / 2 ^ 23 % 2 ^ 8 * 2 ^ 23 + w.toNat % 2 ^ 23 := by omega
  rw [class32, classFields_eq, toNat_expf32, toNat_mant32, hword]
  exact code_of_fields_eq_codeByRange (top := 255) (by omega) (by omega) (by omega)

theorem code_class64 (x : Bin64) :
    (class64 x).code = codeByRange 0x0010000000000000 0x7FF0000000000000 (x.toNat % 2 ^ 63) := by
  have hword : x.toNat % 2 ^ 63 = x.toNat / 2 ^ 52 % 2 ^ 11 * 2 ^ 52 + x.toNat % 2 ^ 52 := by omega
  rw [class64_eq, toNat_expf64, toNat_mant64, hword]
  exact code_of_fields_eq_codeByRange (top := 2047) (by omega) (by omega) (by omega)

/-- Settles O35: R120's rows are ranges of the low 31 bits. -/
theorem class32ByRange : Obligations.Class32ByRange := by
  refine ⟨fun r h => by simp only [decodeRequest, h], fun w s => ?_⟩
  rw [exec_eq_drive_answer, answer_class32, code_class32, sign32_eq_ofNat]
  rfl

/-- Settles O36: R54's rows are ranges of the low 63 bits. -/
theorem class64ByRange : Obligations.Class64ByRange := by
  refine ⟨fun r h => by simp only [decodeRequest, h], fun x s => ?_⟩
  rw [exec_eq_drive_answer, answer_class64, code_class64, sign64_eq_ofNat]
  rfl

/-- Settles O30: DENORM packs the unpacked fields into the same word again, and DEC32, CLASS32 and ENC32
all report `class32` of a word. -/
theorem oneClassification : Obligations.OneClassification := by
  refine fun c w x => ⟨rfl, ?_, rfl, rfl⟩
  simp only [answer_unpack, answer_denorm, answer_class32, fields32_parts]

end Sys2Proof.Machine

/-! ## Which requests raise which error (R130 to R134) -/

namespace Sys2Proof.Machine

/-! ### The two causes of R130's table -/

/-- NORM's domain ends where the exponent field is all ones: at the infinities and the NaNs (R133, R54). -/
theorem operandInDomain_norm_eq_false_iff (x : Bin64) :
    (Instr.norm x).operandInDomain = false ↔ class64 x = .infinity ∨ class64 x = .nan := by
  have hfield : (Instr.norm x).operandInDomain = false ↔ (expf64 x).toNat = 2047 := by
    simp [Instr.operandInDomain, expf64, BitVec.toNat_eq]
  rw [hfield, class64_eq]
  generalize (expf64 x).toNat = e
  split_ifs <;> simp [*]

/-- NORM alone has a domain (R133). -/
theorem operandInDomain_of_ne_norm {i : Instr} (h : ∀ x, i ≠ .norm x) : i.operandInDomain = true := by
  cases i with
  | norm x => exact absurd rfl (h x)
  | _ => rfl

/-- The two causes exclude each other: a reserved operation has no domain (R132, R133). -/
theorem operandInDomain_of_reserved {i : Instr} (h : i.opIsDefined = false) : i.operandInDomain = true := by
  refine operandInDomain_of_ne_norm ?_
  rintro x rfl
  cases h

/-! ### The error code of a response (R130) -/

/-- An operation that is defined and is not NORM raises no error. -/
theorem err_answer_of_ne_norm (c : Config) {i : Instr} (hop : i.opIsDefined = true) (h : ∀ x, i ≠ .norm x) :
    (answer c i).err = 0b00#2 := by
  cases i with
  | norm x => exact absurd rfl (h x)
  | biase e =>
    obtain ⟨ef, ovf, unf, -, he⟩ := answer_biase_form c e
    rw [he]
    rfl
  | reservedB | reservedC | reservedD | reservedE | reservedF => cases hop
  | _ => rfl

/-- NORM raises DOMAIN outside its domain and no error inside it (R133). -/
theorem err_answer_norm (c : Config) (x : Bin64) :
    (answer c (.norm x)).err = if (Instr.norm x).operandInDomain then 0b00#2 else 0b10#2 := by
  cases hin : (Instr.norm x).operandInDomain with
  | false =>
    rw [answer_eq_of_exec (exec_norm_of_nonfinite ((operandInDomain_norm_eq_false_iff x).mp hin))]
    rfl
  | true =>
    have hx : ¬ (class64 x = .infinity ∨ class64 x = .nan) := by
      rw [← operandInDomain_norm_eq_false_iff, hin]
      decide
    cases h : class64 x with
    | infinity | nan => simp [h] at hx
    | zero => rw [answer_eq_of_exec (exec_norm_of_zero h)]; rfl
    | normal => rw [answer_norm_of_finite c (.inl h)]; rfl
    | subnormal => rw [answer_norm_of_finite c (.inr h)]; rfl

/-- The error code of every response: ILLEGAL_OP, DOMAIN or none, by the two checks of R130's table. -/
theorem err_answer (c : Config) (i : Instr) :
    (answer c i).err =
      if i.opIsDefined then (if i.operandInDomain then 0b00#2 else 0b10#2) else 0b01#2 := by
  cases hop : i.opIsDefined with
  | false => rw [answer_of_reserved c hop]; rfl
  | true =>
    rw [if_pos rfl]
    by_cases h : ∃ x, i = .norm x
    · obtain ⟨x, rfl⟩ := h
      exact err_answer_norm c x
    · rw [not_exists] at h
      rw [err_answer_of_ne_norm c hop h, operandInDomain_of_ne_norm h, if_pos rfl]

/-- The operations of R56 answer ILLEGAL_OP in every state (R132). -/
theorem exec_of_reserved {i : Instr} (h : i.opIsDefined = false) (s : State) :
    exec i s = .next { s with out := { quiet with err := 0b01#2 } } := by
  rw [exec_eq_drive_answer, answer_of_reserved _ h]
  rfl

/-! ### The fault a response records (R132, R133) -/

/-- A response records a fault exactly when its code is that of ILLEGAL_OP or of DOMAIN. -/
theorem faultFree_iff (r : Response) : faultFree r = true ↔ r.err ≠ 0b01#2 ∧ r.err ≠ 0b10#2 := by
  by_cases h1 : r.err = 0b01#2
  · simp [faultFree, recordedFault, ErrCode.code, h1]
  · by_cases h2 : r.err = 0b10#2 <;> simp [faultFree, recordedFault, ErrCode.code, h1, h2]

/-- A request is answered without a fault exactly when it is well formed. -/
theorem faultFree_answer (c : Config) (i : Instr) : faultFree (answer c i) = i.wellFormed := by
  rw [Bool.eq_iff_iff, faultFree_iff, err_answer, Instr.wellFormed]
  cases i.opIsDefined <;> cases i.operandInDomain <;> decide

/-! ### The obligations -/

/-- Settles O38: the two checks give the error code, and a reserved operation is never outside a domain. -/
theorem errorsAreThoseOfIllFormedRequests : Obligations.ErrorsAreThoseOfIllFormedRequests := by
  intro i s
  refine ⟨_, exec_eq_drive_answer i s, ?_⟩
  rw [setOut_out, err_answer, Instr.wellFormed]
  cases hop : i.opIsDefined with
  | false => rw [operandInDomain_of_reserved hop]; decide
  | true => cases i.operandInDomain <;> decide

/-- Settles O39: a run's responses are the answers to its requests, each on its own. -/
theorem safeRunsAreRunsOfWellFormedRequests : Obligations.SafeRunsAreRunsOfWellFormedRequests := by
  intro s rs
  rw [safeRun, serveAll_eq_map, List.all_map, List.all_eq_true]
  simp only [Function.comp_apply, response_eq_answer, faultFree_answer]

/-- Settles O11: NORM raises DOMAIN for the two non-finite categories; ENC32 is defined and has no domain. -/
theorem normOfNonFiniteRaisesDomain : Obligations.NormOfNonFiniteRaisesDomain := by
  refine ⟨fun x s hx => ⟨exec_norm_of_nonfinite hx s, rfl⟩, fun x s t ht => ?_⟩
  rw [exec_eq_drive_answer, drive_eq_next_iff] at ht
  rw [ht, setOut_out, err_answer]
  rfl

/-- Settles O37: a reserved op decodes to a reserved operation, whatever the operand ports hold. -/
theorem reservedOpRaisesIllegalOp : Obligations.ReservedOpRaisesIllegalOp := by
  refine ⟨fun s hop => ?_, fun s i hi => ?_, rfl⟩
  · have hundef : ¬ (decodeRequest s.inp).opIsDefined = true := by
      rw [opIsDefined_decodeRequest_iff]
      omega
    exact exec_of_reserved (Bool.eq_false_iff.mpr hundef) s
  · have hundef : ∀ i ∈ [Instr.reservedB, .reservedC, .reservedD, .reservedE, .reservedF],
        i.opIsDefined = false := by decide
    exact exec_of_reserved (hundef i hi) s

end Sys2Proof.Machine

/-! ## Completion and the frame of every operation (R156, R43) -/

namespace Sys2Proof.Machine

/-- Settles O41: every operation drives its answer and nothing else, and a reserved op's answer is
ILLEGAL_OP's. -/
theorem everyRequestCompletes : Obligations.EveryRequestCompletes := by
  obtain ⟨hillegal, -, -⟩ := reservedOpRaisesIllegalOp
  refine ⟨fun s => ⟨_, step_eq_drive_response s, fun hop => ?_⟩,
    fun i s => ⟨answer s.config i, exec_eq_drive_answer i s⟩⟩
  have hstate := (step_eq_next_iff s _).mp (hillegal s hop)
  exact (congrArg State.out hstate).symm

end Sys2Proof.Machine

/-! ## ENC32 of DEC32 of ENC32 (T4) -/

namespace Sys2Proof.Machine

/-! ### The categories of the encoder's words -/

/-- A finite nonzero input never becomes a NaN: an all-ones exponent field comes with mantissa 0 (R80). -/
theorem class32_encodeFinite_ne_nan (p : SubnormalPolicy) (g : SignBit) (q : Mag) :
    class32 (encodeFinite p g q).word ≠ .nan := by
  rcases encodeFinite_cases p g q with ⟨-, he⟩ | ⟨-, he⟩ | ⟨-, -, he⟩ | ⟨hlo, hhi, he⟩ <;>
    rw [he, class32_fields32]
  · decide
  · decide
  · exact fun hnan => absurd ((classFields_eq_nan_iff _ _).mp hnan).1 (by decide)
  · have hfield := toNat_biased hlo hhi
    intro hnan
    have htop := ((classFields_eq_nan_iff _ _).mp hnan).1
    omega

/-- Under FLUSH a magnitude below the normal range becomes a zero, and no other gets exponent field 0 (R77). -/
theorem class32_encodeFinite_flush_ne_subnormal (g : SignBit) (q : Mag) :
    class32 (encodeFinite .flush g q).word ≠ .subnormal := by
  by_cases hu : q.flog2 < -126
  · rw [encodeFinite_of_underflow _ g hu, encodeUnderflow, class32_fields32]
    decide
  · rcases encodeFinite_cases .flush g q with ⟨-, he⟩ | ⟨hu', -⟩ | ⟨hu', -⟩ | ⟨hlo, hhi, he⟩
    · rw [he, class32_fields32]
      decide
    · exact absurd hu' hu
    · exact absurd hu' hu
    · have hfield := toNat_biased hlo hhi
      rw [he, class32_fields32]
      intro hsub
      have hzero := ((classFields_eq_subnormal_iff _ _).mp hsub).1
      omega

theorem class32_encode32_of_not_finite (p : SubnormalPolicy) {x : Bin64}
    (h : ¬ (class64 x = .normal ∨ class64 x = .subnormal)) :
    class32 (encode32 p x).word = class64 x := by
  apply class32_encode32_of_special
  cases hc : class64 x with
  | zero | infinity | nan => simp
  | normal => exact absurd (.inl hc) h
  | subnormal => exact absurd (.inr hc) h

theorem class32_encode32_ne_nan (p : SubnormalPolicy) {x : Bin64} (h : class64 x ≠ .nan) :
    class32 (encode32 p x).word ≠ .nan := by
  by_cases hfin : class64 x = .normal ∨ class64 x = .subnormal
  · rw [encode32_of_finite p hfin]
    exact class32_encodeFinite_ne_nan p _ _
  · rwa [class32_encode32_of_not_finite p hfin]

/-- "Under FLUSH `w` is never subnormal" (T4). -/
theorem class32_encode32_flush_ne_subnormal (x : Bin64) :
    class32 (encode32 .flush x).word ≠ .subnormal := by
  by_cases hfin : class64 x = .normal ∨ class64 x = .subnormal
  · rw [encode32_of_finite _ hfin]
    exact class32_encodeFinite_flush_ne_subnormal _ _
  · rw [class32_encode32_of_not_finite _ hfin]
    exact fun hsub => hfin (.inr hsub)

/-- Settles O33: the encoder's word is one of those that decoding and encoding give back (O31), as T4 argues
from T3. -/
theorem enc32IsIdempotentThroughDec32 : Obligations.Enc32IsIdempotentThroughDec32 := by
  intro c x hnan
  obtain ⟨hpattern, -⟩ := encodeOfDecodeIsThePattern c (answer c (.enc32 x)).r32
  apply hpattern
  · exact class32_encode32_ne_nan c.pSubn hnan
  · cases hp : c.pSubn with
    | gradual => exact .inl rfl
    | flush =>
      right
      rw [answer_enc32, hp]
      exact class32_encode32_flush_ne_subnormal x

end Sys2Proof.Machine

/-! ## Power-up (R6, R150) -/

namespace Sys2Proof.Machine

/-- A settled block answers what already stands on its outputs. -/
theorem step_eq_self_iff (s : State) : step s = .next s ↔ s.settled := by
  rw [step_eq_next_iff]
  exact ⟨fun h => congrArg State.out h, fun h => by rw [← h]⟩

theorem legal_of_settled {s : State} (h : s.settled) : s.out.legal := by
  rw [h, response_eq_answer]
  exact answer_legal _ _

/-- Settles O1: the request of all zeros is SIGNX of a zero, whose answer is 0 on every port; the rest holds
of every settled state. -/
theorem powerUpIsSettledAndAnswersItself : Obligations.PowerUpIsSettledAndAnswersItself := by
  have hsettled : State.reset.settled := by decide
  exact ⟨hsettled, legal_of_settled hsettled, rfl, (step_eq_self_iff _).mpr hsettled⟩

end Sys2Proof.Machine

/-! ## The words of the test-vector programs (R51, R55) -/

namespace Sys2Proof.Machine

theorem decode_of_encode_eq {i : Instr} {w : RequestWord} (h : encode i = w) : decode w = i :=
  h ▸ decode_encode i

/-- Settles O5: seven words are those of their operations, with 0 on every unread port; the reserved one
carries operands, which its op value alone makes irrelevant. -/
theorem specWordsDecodeToTheirOperations : Obligations.SpecWordsDecodeToTheirOperations := by
  refine ⟨decode_of_encode_eq ?_, decode_of_encode_eq ?_, decode_of_encode_eq ?_, decode_of_encode_eq ?_,
    decode_of_encode_eq ?_, decode_of_encode_eq ?_, decode_of_encode_eq ?_, ?_⟩ <;> decide

end Sys2Proof.Machine
